-- ==== Sys2Proof/Word.lean ====
section
/-! DEFINITION. The word types of the ARIBAS-LCG block (00_scope.md R5, R7): every value is unsigned. -/

namespace Sys2Proof

/-- One byte of a stream, the unit of transfer (R24). -/
abbrev Byte := BitVec 8

/-- A lane of the generator state (`LANE_W`, R5). -/
abbrev U16 := BitVec 16

/-- A timestamp, an output of the platform source, its state (`TS_W`, `PS_W`, R5). -/
abbrev U32 := BitVec 32

/-- The generator state and the explicit seed (`STATE_W`, `SEED_W`, R5). -/
abbrev U64 := BitVec 64

end Sys2Proof
end

