-- ==== Sys2Proof/Syntax.lean ====
section
/-! DEFINITION. The commands of the block, one constructor per row of spec/opcode_table.json (R31). -/

namespace Sys2Proof

/-- The four commands (R31). -/
inductive Instr where
  /-- `SEEDT t`: seed from a timestamp (R71). -/
  | seedt (t : U32)
  /-- `SEEDX s`: seed explicitly (R73). -/
  | seedx (s : U64)
  /-- `RDST`: read the state (R84). -/
  | rdst
  /-- `DRAW`: the bounded draw (R80). The operand is the `mod` field as sent (R35): its length is `L`, its big-endian
  value is the modulus `m` (R36, R37; DESIGN CHOICE, log 11). -/
  | draw (modulus : List Byte)
  deriving DecidableEq, Repr

end Sys2Proof
end

