-- ==== Sys2Proof/WellFormed.lean ====
section
/-! DEFINITION. Which commands the wire can carry: every operand of a fixed format is legal (R33, R34, R40), and a
modulus field has at most `MAXLEN` = 65535 bytes (R5, R35). -/

namespace Sys2Proof

/-- `MAXLEN`, the largest modulus byte length the wire carries (R5, D6). -/
def maxLen : Nat := 65535

/-- A command that some byte string of the wire spells (R32 to R35). -/
def Instr.wf : Instr → Bool
  | .seedt _ => true
  | .seedx _ => true
  | .rdst => true
  | .draw modulus => decide (modulus.length ≤ maxLen)

end Sys2Proof
end

