-- ==== Sys2Proof/Decode.lean ====
section
/-! DEFINITION. The wire encoding of commands (30_encoding.md): byte order, the decoder, the encoder, and the reading of a
word of the opcode table. -/

namespace Sys2Proof

/-! ### Byte order (R22, R36) -/

/-- The value of a big-endian field: the first byte is the most significant (R36). -/
def beNat (bs : List Byte) : Nat :=
  bs.foldl (fun v b => v * 256 + b.toNat) 0

/-- The low `n` bytes of `v`, most significant byte first (R22). -/
def beBytes : (n v : Nat) → List Byte
  | 0, _ => []
  | n + 1, v => BitVec.ofNat 8 (v >>> (8 * n)) :: beBytes n v

/-- The low `n` bytes of `v`, least significant byte first: how spec/opcode_table.json numbers the bits of a word. -/
def leBytes : (n v : Nat) → List Byte
  | 0, _ => []
  | n + 1, v => BitVec.ofNat 8 v :: leBytes n (v >>> 8)

/-! ### Opcode bytes (R31, D4) -/

def opSeedt : Byte := 0x01
def opSeedx : Byte := 0x02
def opRdst : Byte := 0x03
def opDraw : Byte := 0x04

/-! ### The decoder -/

/-- What the front of the command stream spells (R30, R40, R45). -/
inductive Fetch where
  /-- A complete command and the bytes after it. -/
  | command (i : Instr) (rest : List Byte)
  /-- A reserved opcode byte and the bytes after that one byte (R40). -/
  | illegal (op : Byte) (rest : List Byte)
  /-- No complete command yet: the stream is empty or ends inside a command (R45). -/
  | incomplete
  deriving DecidableEq, Repr

/-- The next `n` bytes and the bytes after them, if the stream holds `n`. -/
def takeField (n : Nat) (bs : List Byte) : Option (List Byte × List Byte) :=
  if n ≤ bs.length then some (bs.take n, bs.drop n) else none

/-- Format T: a 32-bit operand (R33, R36). -/
def decodeT (bs : List Byte) : Fetch :=
  match takeField 4 bs with
  | some (f, rest) => .command (.seedt (BitVec.ofNat 32 (beNat f))) rest
  | none => .incomplete

/-- Format X: a 64-bit operand (R34, R36). -/
def decodeX (bs : List Byte) : Fetch :=
  match takeField 8 bs with
  | some (f, rest) => .command (.seedx (BitVec.ofNat 64 (beNat f))) rest
  | none => .incomplete

/-- Format V: a 16-bit length `L`, then `L` bytes of the modulus (R35, R36). -/
def decodeV (bs : List Byte) : Fetch :=
  match takeField 2 bs with
  | some (len, bs') =>
    match takeField (beNat len) bs' with
    | some (f, rest) => .command (.draw f) rest
    | none => .incomplete
  | none => .incomplete

/-- One command from the front of the command stream: the opcode byte alone decides the format (R30, R42). Total; a
reserved opcode byte is rejected by name (R40). -/
def decode : List Byte → Fetch
  | [] => .incomplete
  | op :: bs =>
    if op = opSeedt then decodeT bs
    else if op = opSeedx then decodeX bs
    else if op = opRdst then .command .rdst bs
    else if op = opDraw then decodeV bs
    else .illegal op bs

/-! ### The encoder -/

/-- The bytes of a command, first byte sent first (R31 to R35). -/
def encode : Instr → List Byte
  | .seedt t => opSeedt :: beBytes 4 t.toNat
  | .seedx s => opSeedx :: beBytes 8 s.toNat
  | .rdst => [opRdst]
  | .draw modulus => opDraw :: (beBytes 2 modulus.length ++ modulus)

/-- The length of a command in bytes, found from its first byte and, for DRAW, from bytes 1 and 2 (R42). -/
def commandLength (op b1 b2 : Byte) : Nat :=
  if op = opSeedt then 5
  else if op = opSeedx then 9
  else if op = opRdst then 1
  else if op = opDraw then 3 + beNat [b1, b2]
  else 1

/-! ### A word of the opcode table -/

/-- The bytes of the one command whose table word is `w`: bit 0 of `w` is the least significant bit of byte 0, byte 1 is
bits 15..8, and every bit from `nbits` up is 0 (DESIGN CHOICE, log 15). The length is that of R42. -/
def tableWordBytes (nbits w : Nat) : List Byte :=
  let v := w % 2 ^ nbits
  leBytes (commandLength (BitVec.ofNat 8 v) (BitVec.ofNat 8 (v >>> 8)) (BitVec.ofNat 8 (v >>> 16))) v

/-- The command the decoder reads from a word of spec/opcode_table.json. -/
def decodeTableWord (nbits w : Nat) : Option Instr :=
  match decode (tableWordBytes nbits w) with
  | .command i _ => some i
  | .illegal _ _ => none
  | .incomplete => none

end Sys2Proof
end

