-- ==== Sys2Proof/Config.lean ====
section
/-! DEFINITION. The configuration of the block: the platform variants (R14) and the parameter rows of the platform
source (R51, R52). The VALUES of the parameters stand in Sys2Proof/Machine/Params.lean. -/

namespace Sys2Proof

/-- `PLAT`'s values, "a closed enumeration {Linux, Windows}" (R14). -/
inductive Platform where
  | linux
  | windows
  deriving DecidableEq, Repr

/-- One row of the platform source's OPEN parameters (R51, R52, D12). The bounds of R52 hold by the fields' types:
`PRS_A < 2^32`, `PRS_C < 2^32`, `1 <= PRS_M <= 2^32` (the field is `PRS_M - 1`), `PRS_S <= 31`, `PRS_OM < 2^32`
(DEDUCED, log 13). -/
structure PrsRow where
  /-- `PRS_A`, the multiplier. -/
  mult : U32
  /-- `PRS_C`, the increment. -/
  inc : U32
  /-- `PRS_M - 1`, one less than the modulus. -/
  modPred : U32
  /-- `PRS_S`, the output right-shift. -/
  shift : Fin 32
  /-- `PRS_OM`, the output mask. -/
  mask : U32
  deriving DecidableEq, Repr

/-- The two rows, "one capability with two fixed parameterizations" (R51). -/
structure PrsRows where
  linux : PrsRow
  windows : PrsRow
  deriving DecidableEq, Repr

end Sys2Proof
end

