-- ==== Sys2Proof/Machine/Params.lean ====
section
/-! DEFINITION. The values of the block's parameters (00_scope.md R5). -/

namespace Sys2Proof.Machine

/-- `INC`, the additive constant of the mixing step (R5, R60; UNVERIFIED, log 10). -/
def incConst : U64 := 57777

/-- `SCAL`, the multiplicative constant of the mixing step (R5, R60; UNVERIFIED, log 10). -/
def scalConst : U64 := 56857

/-- The default `LINUX` row: 1103515245, 12345, 2^31, 0, 0x7FFFFFFF (R52, G1; PRESUMED by the spec itself, log 1). -/
def defaultLinuxRow : PrsRow :=
  { mult := 1103515245, inc := 12345, modPred := 0x7FFFFFFF, shift := 0, mask := 0x7FFFFFFF }

/-- The default `WINDOWS` row: 214013, 2531011, 2^32, 16, 0x7FFF (R52, G1; PRESUMED by the spec itself, log 1). -/
def defaultWindowsRow : PrsRow :=
  { mult := 214013, inc := 2531011, modPred := 0xFFFFFFFF, shift := 16, mask := 0x7FFF }

/-- Both default rows, "used for every test vector that involves SEEDT" (R52). -/
def defaultRows : PrsRows :=
  { linux := defaultLinuxRow, windows := defaultWindowsRow }

/-- The strap's encoding: 0 is `LINUX`, 1 is `WINDOWS` (R14, R110, D9). -/
def platOfStrap (strap : Bool) : Platform :=
  if strap then .windows else .linux

end Sys2Proof.Machine
end

