-- ==== Sys2Proof/Machine/State.lean ====
section
/-! DEFINITION. The state of the block (10_state.md), the reasons a step can stop, and reset. -/

namespace Sys2Proof.Machine

/-- The three state elements of R10, and three fields of the model's own: the rows (the OPEN parameters that the spec says a
model takes as an argument, fixed for a run; log 1) and the two streams of the host interface (R17, R21; log 6). -/
structure State where
  /-- `RR`, the generator state, four 16-bit lanes (R11). -/
  rr : U64
  /-- `PLAT`, the platform variant (R14). -/
  plat : Platform
  /-- `PS`, the platform source state (R15). -/
  ps : U32
  /-- The model's own: the `PRS_*` rows (R5, R52). -/
  rows : PrsRows
  /-- The model's own: bytes the host has sent and the block has not consumed, the oldest first (R21 (b)). -/
  cmd : List Byte
  /-- The model's own: bytes the block has emitted and the host has not read, the oldest first (R21 (c)). -/
  rsp : List Byte
  deriving DecidableEq, Repr

/-- The block has no fault: "No operation in this component can fail" (R101), and its one non-operation outcome,
IllegalCommand, has a defined next state (R100, log 4). So no constructor exists and nothing raises one (log 12). -/
inductive Fault : Type
  deriving DecidableEq, Repr

/-- The reasons a step can be refused. -/
inductive Refusal where
  /-- Raised only by an arm of `exec` for an instruction that has no meaning; no arm of this model does. Safe. -/
  | notModelled (mnemonic : String)
  deriving DecidableEq, Repr

/-- Reset (R110): `RR` is 0, `PLAT` is what the strap selects, both streams are empty. `PS` is unspecified, so its value
after reset is an argument; the rows are the parameters of the block, which reset does not choose. -/
def State.resetWith (rows : PrsRows) (strap : Bool) (ps : U32) : State :=
  { rr := 0, plat := platOfStrap strap, ps := ps, rows := rows, cmd := [], rsp := [] }

/-- The machine right after reset, with the default rows (log 1), strap 0 (log 2) and `PS` = 0 (log 3). -/
def State.reset : State := State.resetWith defaultRows false 0

end Sys2Proof.Machine
end

