-- ==== Sys2Proof/Machine/Operands.lean ====
section
/-! DEFINITION. The pseudocode primitives on values (00_scope.md R6, R8): lanes, and the lengths of a natural. -/

namespace Sys2Proof.Machine

/-- `LANE(v, n) = (v >> 16n) & 0xFFFF` (R6, R8). -/
def lane (v : U64) (n : Fin 4) : U16 :=
  (v >>> (16 * n.val)).setWidth 16

/-- `SETLANE(v, n, x) = (v & ~64(0xFFFF << 16n)) | ((x & 0xFFFF) << 16n)` (R8). -/
def setLane (v : U64) (n : Fin 4) (x : U16) : U64 :=
  (v &&& ~~~((0xFFFF : U64) <<< (16 * n.val))) ||| ((x.setWidth 64) <<< (16 * n.val))

/-- `BitLen(m)`: the least `k` with `m < 2^k` (R8). -/
def bitLen (m : Nat) : Nat :=
  if m = 0 then 0 else Nat.log2 m + 1

/-- `ByteLen(m) = ceil(BitLen(m) / 8)` (R8, D16). -/
def byteLen (m : Nat) : Nat :=
  (bitLen m + 7) / 8

/-- `acc & NOT(0xFFFF << pos)` on naturals: the 16 bits from `pos` up are cleared, every other bit kept (R82). -/
def clear16 (acc pos : Nat) : Nat :=
  acc ^^^ (acc &&& (0xFFFF <<< pos))

end Sys2Proof.Machine
end

