-- ==== Sys2Proof/Machine/Flags.lean ====
section
/-! DEFINITION. The block has no flags (R16). The one condition it computes is the carry test of a pass (R61), a value
consumed where it is computed and never latched. -/

namespace Sys2Proof.Machine

/-- The carry test of R61: `((a & ~64 N) >> s)` is not 0. -/
def carryEscaped (narrow : U64) (shift : Nat) (a : U64) : Bool :=
  (a &&& ~~~narrow) >>> shift != 0

end Sys2Proof.Machine
end

