-- ==== Sys2Proof/Machine/Ops.lean ====
section
/-! DEFINITION. The operations every command shares: responses (R38), the one exception (R100), and what the host can do
to the block (R21). The block has no trap entry and no return from one (R105), so there is no second half to the exception. -/

namespace Sys2Proof.Machine

/-! ### Responses -/

/-- Status `OK` (R38). -/
def statusOk : Byte := 0x00

/-- Status `ILLEGAL` (R38, R100). -/
def statusIllegal : Byte := 0xFF

/-- Emit a status byte and a payload (R38). -/
def emit (status : Byte) (payload : List Byte) (s : State) : State :=
  { s with rsp := s.rsp ++ status :: payload }

/-- The response of a legal command (R38). -/
def respond (payload : List Byte) (s : State) : State :=
  emit statusOk payload s

/-! ### The exception -/

/-- `raise IllegalCommand` (R100): emit `FF`; no state element changes. The offending byte has been consumed by the fetch. -/
def raiseIllegal (s : State) : State :=
  emit statusIllegal [] s

/-! ### The generator state -/

/-- Write `RR`. -/
def writeRR (v : U64) (s : State) : State :=
  { s with rr := v }

/-! ### The host's side (R21) -/

/-- The reset input with its strap (R110, R111): a new construction from any state. The parameters stay; `PS` after it is
unspecified, so its value is an argument. -/
def hostReset (strap : Bool) (ps : U32) (s : State) : State :=
  State.resetWith s.rows strap ps

/-- The host appends bytes to the command stream (R21 (b), R30). -/
def hostSend (bytes : List Byte) (s : State) : State :=
  { s with cmd := s.cmd ++ bytes }

/-- The host reads up to `n` bytes from the response stream (R21 (c)): the bytes, and the state without them. -/
def hostTake (n : Nat) (s : State) : List Byte × State :=
  (s.rsp.take n, { s with rsp := s.rsp.drop n })

end Sys2Proof.Machine
end

