-- ==== Sys2Proof/Machine/Mixing.lean ====
section
/-! DEFINITION. The mixing step (41_mixing_step.md): PASS, MIX, and its two configurations MIX3 and MIX2. -/

namespace Sys2Proof.Machine

/-- The parameters of a mixing step (R60). -/
structure MixConfig where
  narrow : U64
  wide : U64
  shift : Nat
  deriving DecidableEq, Repr

/-- The 3-word configuration (R60). -/
def mixConfig3 : MixConfig :=
  { narrow := 0x0000FFFFFFFFFFFF, wide := 0xFFFFFFFFFFFFFFFF, shift := 48 }

/-- The 2-word configuration (R60). -/
def mixConfig2 : MixConfig :=
  { narrow := 0x00000000FFFFFFFF, wide := 0x0000FFFFFFFFFFFF, shift := 32 }

/-- `PASS(a, N, W, s)`, the carry-select update of `RR` (R61, C3: the carry replaces the lane above). -/
def mixPass (c : MixConfig) (a rr : U64) : U64 :=
  if carryEscaped c.narrow c.shift a then (rr &&& ~~~c.wide) + a
  else (rr &&& ~~~c.narrow) + a

/-- Pass A: `a <- (RR & N) +64 INC` (R62). -/
def mixPassA (c : MixConfig) (rr : U64) : U64 :=
  mixPass c ((rr &&& c.narrow) + incConst) rr

/-- Pass B: `a <- (RR & N) *64 SCAL` (R62). -/
def mixPassB (c : MixConfig) (rr : U64) : U64 :=
  mixPass c ((rr &&& c.narrow) * scalConst) rr

/-- `MIX(N, W, s)`: pass A, pass B on what A left, then the guard (R62). -/
def mix (c : MixConfig) (rr : U64) : U64 :=
  setLane (mixPassB c (mixPassA c rr)) 3 1

/-- `MIX3` (R63). -/
def mix3 (rr : U64) : U64 := mix mixConfig3 rr

/-- `MIX2` (R64). -/
def mix2 (rr : U64) : U64 := mix mixConfig2 rr

end Sys2Proof.Machine
end

