-- ==== Sys2Proof/Machine/Draw.lean ====
section
/-! DEFINITION. The bounded draw DRAW and the read-out RDST (43_draw_and_read.md). The draw on values is the abstract level
of R9: the modulus is any natural. -/

namespace Sys2Proof.Machine

/-- `DRAW_SMALL(m)`: the result and the new `RR` (R81). The step runs before the zero test. -/
def drawSmall (m : Nat) (rr : U64) : Nat × U64 :=
  let rr := mix2 rr
  (if m = 0 then 0 else (lane rr 1).toNat % m, rr)

/-- The 32 bits one wide pass extracts, `(RR >> 16) & 0xFFFFFFFF` (R82). -/
def drawWord (rr : U64) : Nat :=
  ((rr >>> 16) &&& 0xFFFFFFFF).toNat

/-- The loop of `DRAW_WIDE` from the loop variable `i` (R82): the accumulator and the new `RR`. The first argument bounds the
number of passes; `len16` of them are always enough, since `i` grows by 2. -/
def drawWideLoop (len16 : Nat) : (fuel i acc : Nat) → (rr : U64) → Nat × U64
  | 0, _, acc, rr => (acc, rr)
  | fuel + 1, i, acc, rr =>
    if i < len16 then
      let rr := mix3 rr
      drawWideLoop len16 fuel (i + 2) (acc ||| (drawWord rr <<< (16 * i))) rr
    else (acc, rr)

/-- `DRAW_WIDE(m, len)`: the result and the new `RR` (R82), with the width correction of R83 (C2: bit offset `8 * len`). -/
def drawWide (m len : Nat) (rr : U64) : Nat × U64 :=
  let len16 := (len + 1) / 2
  let looped := drawWideLoop len16 len16 0 0 rr
  (clear16 looped.1 (8 * len) % m, looped.2)

/-- `DRAW m` on values: the result and the new `RR` (R80). -/
def drawValue (m : Nat) (rr : U64) : Nat × U64 :=
  let len := byteLen m
  if len ≤ 2 then drawSmall m rr else drawWide m len rr

/-- `DRAW` (R80): the modulus is the value of the field, not tied to its length (R37); the response carries the result in as
many bytes as the field had (R39). -/
def execDraw (modulus : List Byte) (s : State) : Host.Outcome State Fault Refusal :=
  let drawn := drawValue (beNat modulus) s.rr
  .next (respond (beBytes modulus.length drawn.1) (writeRR drawn.2 s))

/-- `RDST` (R84): the response carries `RR`; nothing is written. -/
def execRdst (s : State) : Host.Outcome State Fault Refusal :=
  .next (respond (beBytes 8 s.rr.toNat) s)

end Sys2Proof.Machine
end

