-- ==== Sys2Proof/Machine/Platform.lean ====
section
/-! DEFINITION. The platform source (40_platform_source.md): the internal operations PRS.SEED and PRS.NEXT. -/

namespace Sys2Proof.Machine

/-- `PRS_M` of a row, between 1 and 2^32 (R52). -/
def prsModulus (r : PrsRow) : Nat :=
  r.modPred.toNat + 1

/-- The row `PLAT` selects (R51, R54). -/
def prsRow (rows : PrsRows) : Platform → PrsRow
  | .linux => rows.linux
  | .windows => rows.windows

/-- The advanced state, `(PS * PRS_A + PRS_C) mod PRS_M`: "exact product and sum on Nat, then mod" (R54). It fits 32 bits (R55). -/
def prsAdvance (r : PrsRow) (ps : U32) : U32 :=
  BitVec.ofNat 32 ((ps.toNat * r.mult.toNat + r.inc.toNat) % prsModulus r)

/-- The output of a state, `(PS >> PRS_S) & PRS_OM` (R54). -/
def prsOutput (r : PrsRow) (ps : U32) : U32 :=
  (ps >>> r.shift.val) &&& r.mask

/-- `PRS.SEED(t)`: `PS <- t`, all 32 bits (R53). -/
def prsSeed (t : U32) (s : State) : State :=
  { s with ps := t }

/-- `PRS.NEXT()`: the state advances first, the output is taken from the new `PS` (R54). -/
def prsNext (s : State) : U32 × State :=
  let r := prsRow s.rows s.plat
  let ps := prsAdvance r s.ps
  (prsOutput r ps, { s with ps := ps })

end Sys2Proof.Machine
end

