-- ==== Sys2Proof/Machine/Seeding.lean ====
section
/-! DEFINITION. The seeding commands SEEDT and SEEDX (42_seeding.md). -/

namespace Sys2Proof.Machine

/-- One phase of SEEDT: seed the platform source with `t`, take one output, write its low 16 bits into lane `n` of `RR`, run
MIX3 (R71 steps 1 and 2 with lane 1, steps 3 and 4 with lane 0). -/
def seedtPhase (n : Fin 4) (t : U32) (s : State) : State :=
  let drawn := prsNext (prsSeed t s)
  let d := drawn.1
  let s := drawn.2
  let s := writeRR (setLane s.rr n (d.setWidth 16)) s
  writeRR (mix3 s.rr) s

/-- `SEEDT t` (R71): the phase on lane 1, the phase on lane 0, then lane 3 forced to 1. `RR` is not cleared first (C4). -/
def execSeedt (t : U32) (s : State) : Host.Outcome State Fault Refusal :=
  let s := seedtPhase 1 t s
  let s := seedtPhase 0 t s
  let s := writeRR (setLane s.rr 3 1) s
  .next (respond [] s)

/-- `SEEDX x` (R73): `RR` becomes `x` with lane 3 forced to 1; the response carries the new `RR`. -/
def execSeedx (x : U64) (s : State) : Host.Outcome State Fault Refusal :=
  let s := writeRR (setLane x 3 1) s
  .next (respond (beBytes 8 s.rr.toNat) s)

end Sys2Proof.Machine
end

