-- ==== Sys2Proof/Machine/Dispatch.lean ====
section
/-! DEFINITION. The dispatch of a command to its meaning, one arm per constructor of Instr. -/

namespace Sys2Proof.Machine

/-- The whole effect of one complete command (R24). -/
def exec (i : Instr) (s : State) : Host.Outcome State Fault Refusal :=
  match i with
  | .seedt t => Sys2Proof.Machine.execSeedt t s
  | .seedx x => Sys2Proof.Machine.execSeedx x s
  | .rdst => Sys2Proof.Machine.execRdst s
  | .draw modulus => Sys2Proof.Machine.execDraw modulus s

end Sys2Proof.Machine
end

