-- ==== Sys2Proof/Machine/Fetch.lean ====
section
/-! DEFINITION. Taking the bytes of a command from the command stream, and placing one there. -/

namespace Sys2Proof.Machine

/-- What the command stream's front spells (R30, R45). -/
def fetchCommand (s : State) : Fetch :=
  decode s.cmd

/-- The command stream after the bytes of a command have been consumed (R24). -/
def consumeTo (rest : List Byte) (s : State) : State :=
  { s with cmd := rest }

/-- The one command of a table word put in front of the command stream, so that it is the next one read (log 7). -/
def placeTableWord (nbits w : Nat) (s : State) : State :=
  { s with cmd := tableWordBytes nbits w ++ s.cmd }

end Sys2Proof.Machine
end

