-- ==== Sys2Proof/Machine/Step.lean ====
section
/-! DEFINITION. One step of the block: one command, whole (R24, R30). -/

namespace Sys2Proof.Machine

/-- A complete command is consumed and executed (R30); a reserved opcode byte is consumed and answered with `FF` (R40, R100;
log 4); on an incomplete command, or an empty stream, the block waits and nothing changes (R45, R117; log 5). -/
def step (s : State) : Host.Outcome State Fault Refusal :=
  match fetchCommand s with
  | .command i rest => exec i (consumeTo rest s)
  | .illegal _ rest => .next (raiseIllegal (consumeTo rest s))
  | .incomplete => .next s

/-- `s` with the command of a table word placed where the next step fetches. -/
def State.withFetchWord (s : State) (nbits w : Nat) : State :=
  placeTableWord nbits w s

end Sys2Proof.Machine
end

