-- ==== Sys2Proof/Machine/Listing.lean ====
section
/-! DEFINITION. The listing syntax of the commands and the pseudo-instructions (R43, R44): a listing line's
operands to the command it is assembled to, none where an operand is out of range, "an assembler error, not a command".
The directive `.reset` is no command: it is `hostReset` of Sys2Proof/Machine/Ops.lean. -/

namespace Sys2Proof.Machine

/-- The listing `SEEDT t`, `t` in 0 to 2^32 - 1 (R43). -/
def asmSeedt (t : Nat) : Option Instr :=
  if t < 2 ^ 32 then some (.seedt (BitVec.ofNat 32 t)) else none

/-- The listing `SEEDX s`, `s` in 0 to 2^64 - 1 (R43). -/
def asmSeedx (x : Nat) : Option Instr :=
  if x < 2 ^ 64 then some (.seedx (BitVec.ofNat 64 x)) else none

/-- The listing `RDST` (R43). -/
def asmRdst : Option Instr := some .rdst

/-- The listing `DRAW m`: assembled with the minimal length `L = ByteLen(m)`; none where the wire cannot carry it (R43). -/
def asmDraw (m : Nat) : Option Instr :=
  if byteLen m ≤ maxLen then some (.draw (beBytes (byteLen m) m)) else none

/-- The listing `DRAW m, L`: explicit length `ByteLen(m) <= L <= 65535`, left-padded with zero bytes (R43). -/
def asmDrawPadded (m len : Nat) : Option Instr :=
  if byteLen m ≤ len ∧ len ≤ maxLen then some (.draw (beBytes len m)) else none

/-- `STEP2`, the listing `DRAW 0` (R44). -/
def asmStep2 : Option Instr := asmDraw 0

/-- `STEP3`, the listing `DRAW 0x10000` (R44). -/
def asmStep3 : Option Instr := asmDraw 0x10000

end Sys2Proof.Machine
end

