-- ==== Sys2Proof/Safety.lean ====
section
/-! DEFINITION. The terms claims about the block are stated in: the guard (R12), the end of a run (R116, R117), command
sequences (R26), and the units a command stream splits into (R45). -/

namespace Sys2Proof.Safety

open Sys2Proof.Machine

/-- The guard: lane 3 of `RR` is 1 (R12). -/
def GuardHeld (s : State) : Prop :=
  lane s.rr 3 = 1

/-- The guard, or the reset value: "the only such value the block ever holds is the reset value 0" (R74, R12, C7). -/
def GuardOrReset (s : State) : Prop :=
  GuardHeld s ∨ s.rr = 0

/-- The command stream holds no complete command and no reserved byte at its front: the block waits (R45, R110). -/
def Waiting (s : State) : Prop :=
  decode s.cmd = .incomplete

/-- A finished run: every command executed, nothing pending (R116). -/
def Finished (s : State) : Prop :=
  s.cmd = []

/-- A stuck run: the command stream ends inside a command (R117). -/
def Stuck (s : State) : Prop :=
  Waiting s ∧ s.cmd ≠ []

/-- Commands executed in order, each on the state the one before it left (R26, D18). -/
def execAll : List Instr → State → Host.Outcome State Fault Refusal
  | [], s => .next s
  | i :: is, s =>
    match exec i s with
    | .next s' => execAll is s'
    | .fault r => .fault r
    | .refused r => .refused r

/-- What a command stream is a sequence of: commands, and reserved opcode bytes (R40, R42). -/
inductive StreamUnit where
  | command (i : Instr)
  | reserved (op : Byte)
  deriving DecidableEq, Repr

/-- A reserved opcode byte: `0x00`, or `0x05` to `0xFF` (R40). -/
def Reserved (op : Byte) : Prop :=
  op.toNat = 0 ∨ 5 ≤ op.toNat

/-- A unit that some byte string spells. -/
def StreamUnit.Legal : StreamUnit → Prop
  | .command i => i.wf = true
  | .reserved op => Reserved op

/-- The bytes of a unit (R42). -/
def StreamUnit.bytes : StreamUnit → List Byte
  | .command i => encode i
  | .reserved op => [op]

/-- `k` steps of the machine. -/
def runSteps (k : Nat) (s : State) : Host.Outcome State Fault Refusal :=
  Host.Core.run Sys2Proof.core k s

end Sys2Proof.Safety
end

