-- ==== Sys2Proof/Certificates/Slice0/Obligations.lean ====
section
/-! DEFINITION. The statements about the block, each from the rules of spec/ its docstring names. -/

open Sys2Proof Sys2Proof.Machine Sys2Proof.Safety

/-! ### Encoding (30_encoding.md) -/

/-- A few command words written out from R31 to R35 decode to the commands they stand for. -/
def Obligations.WrittenOutWordsDecode : Prop :=
  decode [0x01, 0x3B, 0x9A, 0xCA, 0x00] = .command (.seedt 1000000000) [] ∧
  decode [0x02, 0x12, 0x34, 0x56, 0x78, 0x9A, 0xBC, 0xDE, 0xF0, 0x03] = .command (.seedx 0x123456789ABCDEF0) [0x03] ∧
  decode [0x03, 0x03, 0x03] = .command .rdst [0x03, 0x03] ∧
  decode [0x04, 0x00, 0x02, 0x03, 0xE8, 0x00] = .command (.draw [0x03, 0xE8]) [0x00]

/-- Decoding the bytes of a well-formed command, whatever follows them, gives the command and what follows (R30, R42). -/
def Obligations.DecodeOfEncodeIsTheCommand : Prop :=
  ∀ (i : Instr) (rest : List Byte), i.wf = true → decode (encode i ++ rest) = .command i rest

/-- A decoded command is well formed, and the bytes consumed for it are exactly its encoding (R42). -/
def Obligations.DecodedBytesAreTheEncoding : Prop :=
  ∀ (bs : List Byte) (i : Instr) (rest : List Byte),
    decode bs = .command i rest → i.wf = true ∧ bs = encode i ++ rest

/-- Operands are assembled big-endian, unsigned, with no extension (R36). -/
def Obligations.OperandsAssembleBigEndian : Prop :=
  (∀ (b1 b2 b3 b4 : Byte) (rest : List Byte), ∃ t : U32,
    decode (0x01 :: b1 :: b2 :: b3 :: b4 :: rest) = .command (.seedt t) rest ∧
    t.toNat = b1.toNat * 2 ^ 24 + b2.toNat * 2 ^ 16 + b3.toNat * 2 ^ 8 + b4.toNat) ∧
  (∀ (b1 b2 b3 b4 b5 b6 b7 b8 : Byte) (rest : List Byte), ∃ x : U64,
    decode (0x02 :: b1 :: b2 :: b3 :: b4 :: b5 :: b6 :: b7 :: b8 :: rest) = .command (.seedx x) rest ∧
    x.toNat = b1.toNat * 2 ^ 56 + b2.toNat * 2 ^ 48 + b3.toNat * 2 ^ 40 + b4.toNat * 2 ^ 32 +
      b5.toNat * 2 ^ 24 + b6.toNat * 2 ^ 16 + b7.toNat * 2 ^ 8 + b8.toNat) ∧
  (∀ (b1 b2 : Byte) (f rest : List Byte), f.length = b1.toNat * 2 ^ 8 + b2.toNat →
    decode (0x04 :: b1 :: b2 :: (f ++ rest)) = .command (.draw f) rest ∧
    beNat f = ∑ k ∈ Finset.range f.length, (f.getD k 0).toNat * 2 ^ (8 * (f.length - 1 - k)))

/-- The decoder finds no command exactly on the proper initial parts of some command's bytes (R45). -/
def Obligations.IncompleteIsAProperInitialPart : Prop :=
  ∀ bs : List Byte, decode bs = .incomplete ↔
    ∃ (i : Instr) (missing : List Byte), i.wf = true ∧ missing ≠ [] ∧ encode i = bs ++ missing

/-- Every finite byte string splits in exactly one way into commands and reserved bytes, but for a tail that holds no complete
command (R45). -/
def Obligations.StreamsSplitInExactlyOneWay : Prop :=
  ∀ bs : List Byte,
    (∃ (us : List StreamUnit) (tail : List Byte),
      (∀ u ∈ us, u.Legal) ∧ decode tail = .incomplete ∧ bs = us.flatMap StreamUnit.bytes ++ tail) ∧
    (∀ (us vs : List StreamUnit) (tail tail' : List Byte),
      (∀ u ∈ us, u.Legal) → (∀ v ∈ vs, v.Legal) → decode tail = .incomplete → decode tail' = .incomplete →
      bs = us.flatMap StreamUnit.bytes ++ tail → bs = vs.flatMap StreamUnit.bytes ++ tail' → us = vs ∧ tail = tail')

/-- Each listing line assembles to its bytes, `DRAW m` with the minimal length and `DRAW m, L` left-padded with zero bytes, and an
operand out of range to no command (R43). -/
def Obligations.ListingsAssemble : Prop :=
  (∀ t : Nat, t < 2 ^ 32 → ∃ i, asmSeedt t = some i ∧ encode i = 0x01 :: beBytes 4 t) ∧
  (∀ x : Nat, x < 2 ^ 64 → ∃ i, asmSeedx x = some i ∧ encode i = 0x02 :: beBytes 8 x) ∧
  (∃ i, asmRdst = some i ∧ encode i = [0x03]) ∧
  (∀ m : Nat, byteLen m ≤ 65535 → ∃ (i : Instr) (f : List Byte), asmDraw m = some i ∧
    encode i = 0x04 :: (beBytes 2 (byteLen m) ++ f) ∧ f.length = byteLen m ∧ beNat f = m) ∧
  (∀ m len : Nat, byteLen m ≤ len → len ≤ 65535 → ∃ (i : Instr) (f : List Byte), asmDrawPadded m len = some i ∧
    encode i = 0x04 :: (beBytes 2 len ++ (List.replicate (len - byteLen m) 0 ++ f)) ∧
    f.length = byteLen m ∧ beNat f = m) ∧
  (∀ t : Nat, 2 ^ 32 ≤ t → asmSeedt t = none) ∧ (∀ x : Nat, 2 ^ 64 ≤ x → asmSeedx x = none) ∧
  (∀ m : Nat, 65535 < byteLen m → asmDraw m = none) ∧
  (∀ m len : Nat, len < byteLen m ∨ 65535 < len → asmDrawPadded m len = none)

/-- `ByteLen(m)` is the least number of bytes that holds `m` (R8). -/
def Obligations.ByteLenIsLeast : Prop :=
  byteLen 0 = 0 ∧
  ∀ m : Nat, m < 2 ^ bitLen m ∧ (∀ k, m < 2 ^ k → bitLen m ≤ k) ∧
    m < 2 ^ (8 * byteLen m) ∧ (∀ k, m < 2 ^ (8 * k) → byteLen m ≤ k)

/-! ### A step and the streams (20_memory.md, 60_exceptions.md, 70_reset_and_hazards.md) -/

/-- A step runs the decoded command on the state whose command stream is past the command's bytes (R30). -/
def Obligations.StepRunsTheDecodedCommand : Prop :=
  ∀ (s : State) (i : Instr) (rest : List Byte),
    decode s.cmd = .command i rest → step s = exec i { s with cmd := rest }

/-- IllegalCommand is raised by exactly the reserved opcode bytes: one byte consumed, no state element changed, the response
`FF`, nothing kept (R100; that the model takes the defined transition and does not refuse is log 4). -/
def Obligations.ReservedByteRaisesIllegalCommand : Prop :=
  (∀ (op : Byte) (rest : List Byte), decode (op :: rest) = .illegal op rest ↔ Reserved op) ∧
  (∀ (op op' : Byte) (bs rest : List Byte), ¬ Reserved op → decode (op :: bs) ≠ .illegal op' rest) ∧
  (∀ (s : State) (op : Byte) (rest : List Byte), s.cmd = op :: rest → Reserved op →
    step s = .next { s with cmd := rest, rsp := s.rsp ++ [0xFF] })

/-- On an incomplete command the block waits with nothing executed; once the missing bytes are there the next step runs it
(R45, R117; that waiting is a step that leaves the state as it is, is the model's choice, log 5). -/
def Obligations.WaitsUntilTheMissingBytesArrive : Prop :=
  ∀ (s : State) (i : Instr) (missing : List Byte), i.wf = true → missing ≠ [] → encode i = s.cmd ++ missing →
    step s = .next s ∧ step (hostSend missing s) = exec i { s with cmd := [] }

/-- Every command on every state answers a next state (R101; that Fault has no constructor is log 12), and so does every step: that a
reserved byte takes the defined transition (R100) and that waiting for bytes is a step that answers a next state (R45, R117) are the
model's choices, log 4 and log 5. -/
def Obligations.NothingCanFail : Prop :=
  (∀ (i : Instr) (s : State), ∃ s', exec i s = .next s') ∧ (∀ s : State, ∃ s', step s = .next s')

/-- A legal command appends one response, status `00` and a payload of the length its row gives, and leaves the bytes already
in both streams as they are (R38, R39). -/
def Obligations.ResponseLengthIsFixedByTheCommand : Prop :=
  ∀ (i : Instr) (s s' : State), exec i s = .next s' →
    s'.cmd = s.cmd ∧
    ∃ payload : List Byte, s'.rsp = s.rsp ++ 0x00 :: payload ∧
      payload.length = (match i with | .seedt _ => 0 | .seedx _ => 8 | .rdst => 8 | .draw f => f.length)

/-- Commands run in the order of their first bytes, each on the state the one before it left (R26). -/
def Obligations.CommandsRunInStreamOrder : Prop :=
  ∀ (is : List Instr) (tail : List Byte) (s : State), (∀ i ∈ is, i.wf = true) →
    s.cmd = is.flatMap encode ++ tail → runSteps is.length s = execAll is { s with cmd := tail }

/-- Bytes sent before a step change nothing of what that step does with the command or reserved byte already there (R113). -/
def Obligations.SendingEarlyChangesNothing : Prop :=
  ∀ (s s' : State) (bs : List Byte), ¬ Waiting s → step s = .next s' → step (hostSend bs s) = .next (hostSend bs s')

/-- Reading responses before a step or after it gives the same bytes and the same block (R113, R21). -/
def Obligations.ReadingResponsesCommutesWithAStep : Prop :=
  ∀ (s s' : State) (n : Nat), n ≤ s.rsp.length → step s = .next s' →
    step (hostTake n s).2 = .next (hostTake n s').2 ∧ (hostTake n s').1 = (hostTake n s).1

/-- A finite command stream is worked off: after as many steps as it has bytes nothing complete is left, and the block stays as it
is from then on (R115, R116, R117; the waiting step is the model's choice, log 5). -/
def Obligations.FiniteStreamIsWorkedOff : Prop :=
  ∀ s : State, ∃ s', runSteps s.cmd.length s = .next s' ∧ Waiting s' ∧ ∀ k, runSteps k s' = .next s'

/-- The next step runs exactly the command of a table word that is placed where it fetches (the model's convention, log 7 and
log 15). -/
def Obligations.PlacedTableWordRunsNext : Prop :=
  ∀ (s : State) (nbits w : Nat) (i : Instr), decodeTableWord nbits w = some i → step (s.withFetchWord nbits w) = exec i s

/-! ### Reset (70_reset_and_hazards.md) -/

/-- Reset: `RR` 0 in every lane, `PLAT` from the strap, `PS` any value, both streams empty (R19, R110). -/
def Obligations.ResetLeavesTheStatedValues : Prop :=
  ∀ (strap : Bool) (ps : U32) (s : State),
    (hostReset strap ps s).rr = 0 ∧ (∀ n, lane (hostReset strap ps s).rr n = 0) ∧
    (hostReset strap ps s).plat = (if strap = false then .linux else .windows) ∧
    (hostReset strap ps s).ps = ps ∧ (hostReset strap ps s).cmd = [] ∧ (hostReset strap ps s).rsp = []

/-- Nothing survives reset: what follows it depends on the strap and on the bytes sent afterwards, not on the state before; of the
unspecified `PS` nothing shows in any other field (R111; the spec's own inference R86). -/
def Obligations.NothingSurvivesReset : Prop :=
  ∀ (s t : State) (strap : Bool) (p q : U32) (bs : List Byte) (k : Nat), s.rows = t.rows →
    ∃ u v : State, runSteps k (hostSend bs (hostReset strap p s)) = .next u ∧
      runSteps k (hostSend bs (hostReset strap q t)) = .next v ∧ u = { v with ps := u.ps }

/-! ### The platform source (40_platform_source.md) -/

/-- PRS.SEED copies all 32 bits of the timestamp, for both variants, and touches nothing else (R53). -/
def Obligations.PrsSeedCopiesTheTimestamp : Prop :=
  ∀ (t : U32) (s : State), prsSeed t s = { s with ps := t }

/-- PRS.NEXT advances `PS` by the row `PLAT` selects, in exact arithmetic, and outputs from the advanced `PS`; nothing else
changes (R54). -/
def Obligations.PrsNextAdvancesThenOutputs : Prop :=
  ∀ s : State, ∃ (out ps : U32), prsNext s = (out, { s with ps := ps }) ∧
    ∀ r : PrsRow, r = (match s.plat with | .linux => s.rows.linux | .windows => s.rows.windows) →
      ps.toNat = (s.ps.toNat * r.mult.toNat + r.inc.toNat) % (r.modPred.toNat + 1) ∧
      out.toNat = (ps.toNat >>> r.shift.val) &&& r.mask.toNat

/-- The arithmetic of PRS.NEXT: the bounds of product, sum and output, the new state below the modulus, and, for a modulus `2^k`,
the low `k` bits of wrapping arithmetic of any width from `k` up, 32 bits and a mask among them (the spec's own inference R55; the
default rows are its general knowledge, log 1). -/
def Obligations.PrsArithmeticIsBounded : Prop :=
  ∀ (r : PrsRow) (ps : U32),
    ps.toNat * r.mult.toNat < 2 ^ 64 ∧ ps.toNat * r.mult.toNat + r.inc.toNat < 2 ^ 64 + 2 ^ 32 ∧
    (prsAdvance r ps).toNat < prsModulus r ∧ prsModulus r ≤ 2 ^ 32 ∧ (prsOutput r ps).toNat < 2 ^ 32 ∧
    (∀ k, k ≤ 32 → prsModulus r = 2 ^ k →
      (prsAdvance r ps).toNat = (ps.toNat * r.mult.toNat + r.inc.toNat) % 2 ^ k ∧
      (∀ w, k ≤ w → (prsAdvance r ps).toNat = (ps.toNat * r.mult.toNat % 2 ^ w + r.inc.toNat) % 2 ^ w % 2 ^ k) ∧
      (k < 32 → prsAdvance r ps = (ps * r.mult + r.inc) &&& BitVec.ofNat 32 (2 ^ k - 1)) ∧
      (k = 32 → prsAdvance r ps = ps * r.mult + r.inc)) ∧
    prsModulus defaultLinuxRow = 2 ^ 31 ∧ prsModulus defaultWindowsRow = 2 ^ 32

/-! ### The mixing step (41_mixing_step.md) -/

/-- PASS: without a carry the narrow field becomes `a` and every lane above is kept; with one, the wide field becomes `a`, and what
the lane above the narrow field held is lost (R61, C3). -/
def Obligations.PassIsCarrySelect : Prop :=
  ∀ c : MixConfig, c = mixConfig3 ∨ c = mixConfig2 → ∀ a rr : U64,
    (carryEscaped c.narrow c.shift a = true ↔ 2 ^ c.shift ≤ a.toNat) ∧
    (a.toNat < 2 ^ c.shift → (mixPass c a rr).toNat = rr.toNat / 2 ^ c.shift * 2 ^ c.shift + a.toNat) ∧
    (2 ^ c.shift ≤ a.toNat → a.toNat < 2 ^ (c.shift + 16) →
      (mixPass c a rr).toNat = rr.toNat / 2 ^ (c.shift + 16) * 2 ^ (c.shift + 16) + a.toNat)

/-- No 64-bit overflow occurs inside a step: the bounds of both pass values, the addends of each update have no bit in common, and
the wrapping operations equal the exact ones (the spec's own inference R65, from R60, R61, R62). -/
def Obligations.NoOverflowInsideAStep : Prop :=
  ∀ c : MixConfig, c = mixConfig3 ∨ c = mixConfig2 → ∀ rr v : U64,
    (rr &&& c.narrow).toNat + 57777 ≤ 2 ^ 48 - 1 + 57777 ∧
    ((rr &&& c.narrow) + incConst).toNat = (rr &&& c.narrow).toNat + 57777 ∧
    (rr &&& c.narrow).toNat * 56857 ≤ 0xDE18FFFFFFFF21E7 ∧
    ((rr &&& c.narrow) * scalConst).toNat = (rr &&& c.narrow).toNat * 56857 ∧
    ((rr &&& c.narrow) + incConst).toNat < 2 ^ c.shift + 2 ^ 16 ∧
    ((rr &&& c.narrow) * scalConst).toNat < 2 ^ c.shift * 2 ^ 16 ∧
    (∀ a : U64, a = (rr &&& c.narrow) + incConst ∨ a = (rr &&& c.narrow) * scalConst →
      (carryEscaped c.narrow c.shift a = false →
        a.toNat < 2 ^ c.shift ∧ (v &&& ~~~c.narrow) &&& a = 0 ∧ mixPass c a v = (v &&& ~~~c.narrow) ||| a ∧
        (mixPass c a v).toNat = (v &&& ~~~c.narrow).toNat + a.toNat) ∧
      (carryEscaped c.narrow c.shift a = true →
        a.toNat < 2 ^ (c.shift + 16) ∧ (v &&& ~~~c.wide) &&& a = 0 ∧ mixPass c a v = (v &&& ~~~c.wide) ||| a ∧
        (mixPass c a v).toNat = (v &&& ~~~c.wide).toNat + a.toNat))

/-- The closed form of MIX3; it does not depend on the old lane 3, and on the low 48 bits it is a bijection (the spec's own
inference R66, from R61, R62, R63). -/
def Obligations.Mix3ClosedForm : Prop :=
  (∀ rr : U64, (mix3 rr).toNat = 0x0001000000000000 ||| ((rr.toNat % 2 ^ 48 + 57777) * 56857 % 2 ^ 48)) ∧
  (∀ rr v : U64, rr.toNat % 2 ^ 48 = v.toNat % 2 ^ 48 → mix3 rr = mix3 v) ∧
  (∀ rr v : U64, mix3 rr = mix3 v → rr.toNat % 2 ^ 48 = v.toNat % 2 ^ 48) ∧
  (∀ y, y < 2 ^ 48 → ∃ rr : U64, (mix3 rr).toNat % 2 ^ 48 = y)

/-- The closed form of MIX2: lane 2 is the carry of pass B, else 1 when pass A carries, else the old lane 2; it does not depend on the
old lane 3 (the spec's own inference R67, from R61, R62, R64). -/
def Obligations.Mix2ClosedForm : Prop :=
  ∀ rr : U64, ∀ a1 x1 a2 : Nat,
    a1 = rr.toNat % 2 ^ 32 + 57777 → x1 = a1 % 2 ^ 32 → a2 = x1 * 56857 →
    (mix2 rr).toNat = 0x0001000000000000 |||
      ((if 2 ^ 32 ≤ a2 then a2 / 2 ^ 32 else if 2 ^ 32 ≤ a1 then 1 else (lane rr 2).toNat) <<< 32) ||| (a2 % 2 ^ 32) ∧
    a1 < 2 ^ 32 + 2 ^ 16 ∧ a2 < 2 ^ 48 ∧ (2 ^ 32 ≤ a1 → a1 / 2 ^ 32 = 1) ∧
    (2 ^ 32 ≤ a2 → 1 ≤ a2 / 2 ^ 32 ∧ a2 / 2 ^ 32 ≤ 56856) ∧
    (mix2 rr).toNat % 2 ^ 32 = (rr.toNat % 2 ^ 32 + 57777) * 56857 % 2 ^ 32 ∧
    (∀ v : U64, v.toNat % 2 ^ 48 = rr.toNat % 2 ^ 48 → mix2 v = mix2 rr)

/-- When each pass carries, and that the two passes of one step never both carry (the spec's own inference R68). -/
def Obligations.PassCarryThresholds : Prop :=
  ∀ rr : U64, ∀ lo x : Nat, lo = rr.toNat % 2 ^ 32 → x = rr.toNat % 2 ^ 48 →
    ∀ A2 B2 A3 B3 : Prop,
      (A2 ↔ carryEscaped mixConfig2.narrow mixConfig2.shift ((rr &&& mixConfig2.narrow) + incConst) = true) →
      (B2 ↔ carryEscaped mixConfig2.narrow mixConfig2.shift
        ((mixPassA mixConfig2 rr &&& mixConfig2.narrow) * scalConst) = true) →
      (A3 ↔ carryEscaped mixConfig3.narrow mixConfig3.shift ((rr &&& mixConfig3.narrow) + incConst) = true) →
      (B3 ↔ carryEscaped mixConfig3.narrow mixConfig3.shift
        ((mixPassA mixConfig3 rr &&& mixConfig3.narrow) * scalConst) = true) →
      (A2 ↔ 0xFFFF1E4F ≤ lo) ∧ (B2 ↔ 75540 ≤ (lo + 57777) % 2 ^ 32) ∧ (¬ A2 → (B2 ↔ 17763 ≤ lo)) ∧ ¬ (A2 ∧ B2) ∧
      (A3 ↔ 0xFFFFFFFF1E4F ≤ x) ∧ (B3 ↔ 4950577356 ≤ (x + 57777) % 2 ^ 48) ∧ (¬ A3 → (B3 ↔ 0x12712EF1B ≤ x)) ∧
      ¬ (A3 ∧ B3)

/-- After MIX3 or MIX2 lane 3 is 1, whatever `RR` was (the spec's own inference R69, from R62's last line). -/
def Obligations.GuardAfterAStep : Prop :=
  ∀ rr : U64, lane (mix3 rr) 3 = 1 ∧ lane (mix2 rr) 3 = 1

/-! ### Seeding (42_seeding.md) -/

/-- SEEDT runs its nine lines: two phases of PRS.SEED, PRS.NEXT, a lane write and MIX3, then the guard; only `RR` and `PS` change and
the response is the status alone (R71). -/
def Obligations.SeedtRunsTheNineLines : Prop :=
  ∀ (t : U32) (s : State), ∀ r : PrsRow,
    r = (match s.plat with | .linux => s.rows.linux | .windows => s.rows.windows) →
    ∀ p d : U32, p = prsAdvance r t → d = prsOutput r p →
      exec (.seedt t) s = .next
        { s with
          rr := setLane (mix3 (setLane (mix3 (setLane s.rr 1 (d.setWidth 16))) 0 (d.setWidth 16))) 3 1
          ps := p
          rsp := s.rsp ++ [0x00] }

/-- SEEDT in closed form: the composed 48-bit map of R72 (b) on the output word of the platform source (the
spec's own inference R72 (a), (b), from R71 and R54). -/
def Obligations.SeedtClosedForm : Prop :=
  ∀ (t : U32) (s : State), ∀ r : PrsRow,
    r = (match s.plat with | .linux => s.rows.linux | .windows => s.rows.windows) →
    ∀ p w x0 y z : Nat, ∀ f : Nat → Nat, (∀ x, f x = (x + 57777) * 56857 % 2 ^ 48) →
      p = (t.toNat * r.mult.toNat + r.inc.toNat) % (r.modPred.toNat + 1) →
      w = ((p >>> r.shift.val) &&& r.mask.toNat) % 2 ^ 16 →
      x0 = s.rr.toNat % 2 ^ 48 →
      y = f ((x0 &&& 0xFFFF0000FFFF) ||| (w <<< 16)) →
      z = f ((y &&& 0xFFFFFFFF0000) ||| w) →
      exec (.seedt t) s = .next
        { s with
          rr := BitVec.ofNat 64 (0x0001000000000000 ||| z)
          ps := BitVec.ofNat 32 p
          rsp := s.rsp ++ [0x00] }

/-- The `RR` that SEEDT leaves depends on the old lanes 0 and 2, the timestamp and the selected row only; its lane 0 on the output
word alone; its lane 3 is 1 (the spec's own inference R72 (c), (d), (f)). -/
def Obligations.SeedtReadsLanes0And2Only : Prop :=
  ∀ (t : U32) (s u s' u' : State), s.plat = u.plat → s.rows = u.rows →
    exec (.seedt t) s = .next s' → exec (.seedt t) u = .next u' →
    (lane s.rr 0 = lane u.rr 0 → lane s.rr 2 = lane u.rr 2 → s'.rr = u'.rr) ∧
    lane s'.rr 0 = lane u'.rr 0 ∧ lane s'.rr 3 = 1 ∧
    ∀ w : Nat, w = (prsOutput (prsRow s.rows s.plat) (prsAdvance (prsRow s.rows s.plat) t)).toNat % 2 ^ 16 →
      (lane s'.rr 0).toNat = (w + 57777) * 56857 % 2 ^ 16

/-- SEEDT issued again on the block it seeded need not leave the same `RR` (R24, C4; the spec's own inference R72 (c)). -/
def Obligations.SeedtIsNotIdempotent : Prop :=
  ∃ (t : U32) (s s' s'' : State), s.rr = 0 ∧ exec (.seedt t) s = .next s' ∧ exec (.seedt t) s' = .next s'' ∧ s'.rr ≠ s''.rr

/-- SEEDX sets `RR` to the seed with lane 3 forced to 1 and returns it; nothing else changes, and an RDST right after it returns the
same value (R73). -/
def Obligations.SeedxSetsTheStateAndReturnsIt : Prop :=
  ∀ (x : U64) (s : State), ∀ v : U64, v = ((x &&& 0x0000FFFFFFFFFFFF) ||| 0x0001000000000000) →
    exec (.seedx x) s = .next { s with rr := v, rsp := s.rsp ++ 0x00 :: beBytes 8 v.toNat } ∧
    ∀ s' : State, exec (.seedx x) s = .next s' →
      exec .rdst s' = .next { s' with rsp := s'.rsp ++ 0x00 :: beBytes 8 v.toNat }

/-- SEEDX is idempotent, independent of the state before, equal for seeds that agree in bits 47..0 only, and reaches exactly the
`RR` values whose lane 3 is 1 (the spec's own inference R74, from R73). -/
def Obligations.SeedxConsequences : Prop :=
  (∀ (x : U64) (s t u : State), exec (.seedx x) s = .next t → exec (.seedx x) t = .next u → u.rr = t.rr) ∧
  (∀ (x y : U64) (s t s' t' : State), exec (.seedx x) s = .next s' → exec (.seedx y) t = .next t' →
    (s'.rr = t'.rr ↔ x.toNat % 2 ^ 48 = y.toNat % 2 ^ 48)) ∧
  (∀ (v : U64) (s : State), lane v 3 = 1 ↔ ∃ (x : U64) (t : State), exec (.seedx x) s = .next t ∧ t.rr = v)

/-! ### Read-out and draw (43_draw_and_read.md) -/

/-- RDST returns the raw `RR`, most significant byte first, and changes no state element (R84, R39). -/
def Obligations.RdstReturnsTheRawState : Prop :=
  ∀ s : State, ∃ payload : List Byte,
    exec .rdst s = .next { s with rsp := s.rsp ++ 0x00 :: payload } ∧ payload.length = 8 ∧ beNat payload = s.rr.toNat

/-- The small draw: one MIX2, then 0 for a zero modulus, else lane 1 of the new `RR` reduced; only `RR` changes (R81). -/
def Obligations.SmallDrawIsOneMix2AndLane1 : Prop :=
  ∀ (f : List Byte) (s : State), beNat f ≤ 0xFFFF →
    exec (.draw f) s = .next
      { s with
        rr := mix2 s.rr
        rsp := s.rsp ++ 0x00 :: beBytes f.length
          (if beNat f = 0 then 0 else (mix2 s.rr).toNat / 2 ^ 16 % 2 ^ 16 % beNat f) }

/-- The wide draw: `ceil(len / 4)` MIX3 steps, lanes 2 and 1 after each concatenated with the first least significant, the 16 bits from
`8 * len` up taken out, the rest reduced; only `RR` changes (R82). -/
def Obligations.WideDrawConcatenatesMix3Words : Prop :=
  ∀ (f : List Byte) (s : State), ∀ m len n acc : Nat, m = beNat f → 0x10000 ≤ m → len = byteLen m → n = (len + 3) / 4 →
    acc = ∑ j ∈ Finset.range n, ((mix3^[j + 1] s.rr).toNat / 2 ^ 16 % 2 ^ 32) * 2 ^ (32 * j) →
    exec (.draw f) s = .next
      { s with
        rr := mix3^[n] s.rr
        rsp := s.rsp ++ 0x00 :: beBytes f.length
          ((acc - acc / 2 ^ (8 * len) % 2 ^ 16 * 2 ^ (8 * len)) % m) }

/-- The width correction clears bits `8 * len` to `8 * len + 15` and nothing else; what it does to an accumulator of
`32 * ceil(len / 4)` bits, by `len mod 4` (R82; the table is the spec's own inference at R83). -/
def Obligations.WidthCorrectionClearsSixteenBits : Prop :=
  (∀ acc len k : Nat, (clear16 acc (8 * len)).testBit k =
    (acc.testBit k && !(decide (8 * len ≤ k) && decide (k ≤ 8 * len + 15)))) ∧
  (∀ acc len : Nat, acc < 2 ^ (32 * ((len + 3) / 4)) →
    (len % 4 = 0 → clear16 acc (8 * len) = acc) ∧
    (len % 4 = 3 → clear16 acc (8 * len) = acc % 2 ^ (8 * len)) ∧
    (len % 4 = 2 → clear16 acc (8 * len) = acc % 2 ^ (8 * len)) ∧
    (len % 4 = 1 → clear16 acc (8 * len) =
      acc % 2 ^ (8 * len) + acc / 2 ^ (8 * len + 16) * 2 ^ (8 * len + 16) ∧ acc / 2 ^ (8 * len + 16) < 2 ^ 8))

/-- The result of a draw is below its modulus, 0 for modulus 0, and always fits the `L` bytes of the response (R39; the spec's own
inference R85 (a)). -/
def Obligations.DrawResultIsInRange : Prop :=
  ∀ (f : List Byte) (s : State), ∃ (s' : State) (payload : List Byte),
    exec (.draw f) s = .next s' ∧ s'.rsp = s.rsp ++ 0x00 :: payload ∧ payload.length = f.length ∧
    (0 < beNat f → beNat payload < beNat f) ∧ (beNat f = 0 → beNat payload = 0) ∧
    beNat payload = (drawValue (beNat f) s.rr).1

/-- The new `RR` of a draw depends only on the old `RR[47:0]` and on `ByteLen(m)`, and has lane 3 equal to 1; the result depends only
on the old `RR[47:0]` and on `m` (the spec's own inference R85 (c), (d)). -/
def Obligations.DrawDependsOnLow48AndLengthClass : Prop :=
  ∀ (f g : List Byte) (s t s' t' : State), s.rr.toNat % 2 ^ 48 = t.rr.toNat % 2 ^ 48 →
    exec (.draw f) s = .next s' → exec (.draw g) t = .next t' →
    (byteLen (beNat f) = byteLen (beNat g) → s'.rr = t'.rr) ∧ lane s'.rr 3 = 1 ∧
    (beNat f = beNat g → (drawValue (beNat f) s.rr).1 = (drawValue (beNat g) t.rr).1)

/-- Leading zero bytes of the modulus field change only the width of the response (R37). -/
def Obligations.LeadingZerosWidenOnlyTheResponse : Prop :=
  ∀ (f : List Byte) (k : Nat) (s : State), ∃ (s' : State) (payload : List Byte),
    exec (.draw f) s = .next s' ∧ s'.rsp = s.rsp ++ 0x00 :: payload ∧ payload.length = f.length ∧
    exec (.draw (List.replicate k 0 ++ f)) s =
      .next { s' with rsp := s.rsp ++ 0x00 :: (List.replicate k 0 ++ payload) }

/-- STEP2 runs one MIX2 and answers an empty payload; STEP3 runs one MIX3 and answers three bytes (R44, whose
effects the spec marks as its own inference). -/
def Obligations.StepPseudoInstructions : Prop :=
  ∃ i2 i3 : Instr, asmStep2 = some i2 ∧ asmStep3 = some i3 ∧
    encode i2 = [0x04, 0x00, 0x00] ∧ encode i3 = [0x04, 0x00, 0x03, 0x01, 0x00, 0x00] ∧
    ∀ s : State, exec i2 s = .next { s with rr := mix2 s.rr, rsp := s.rsp ++ [0x00] } ∧
      ∃ b0 b1 b2 : Byte, exec i3 s = .next { s with rr := mix3 s.rr, rsp := s.rsp ++ [0x00, b0, b1, b2] }

/-! ### The whole machine (10_state.md) -/

/-- Every step keeps: lane 3 of `RR` is 1, or `RR` is the reset value 0 (R12; the spec's own inference R74). -/
def Obligations.StepKeepsGuardOrReset : Prop :=
  ∀ s s' : State, GuardOrReset s → step s = .next s' → GuardOrReset s'

/-- The state right after reset, with any rows, strap and `PS`, has lane 3 equal to 0 and meets GuardOrReset (R12, R19). -/
def Obligations.ResetMeetsGuardOrReset : Prop :=
  (∀ (rows : PrsRows) (strap : Bool) (ps : U32),
    GuardOrReset (State.resetWith rows strap ps) ∧ lane (State.resetWith rows strap ps).rr 3 = 0) ∧
  GuardOrReset Sys2Proof.core.reset

/-- SEEDT, SEEDX and DRAW leave the guard from every state; RDST leaves `RR` as it is; and once the guard holds every step keeps it
(R12). -/
def Obligations.MutatingCommandsEstablishTheGuard : Prop :=
  (∀ (i : Instr) (s s' : State), exec i s = .next s' → (i ≠ .rdst → GuardHeld s') ∧ (i = .rdst → s'.rr = s.rr)) ∧
  (∀ s s' : State, GuardHeld s → step s = .next s' → GuardHeld s')

/-- No command and no number of steps changes `PLAT` or the rows (R14, R17). -/
def Obligations.PlatAndRowsNeverChange : Prop :=
  ∀ (k : Nat) (s s' : State), runSteps k s = .next s' → s'.plat = s.plat ∧ s'.rows = s.rows

/-- The value `PS` holds between commands is never read: two runs that differ in it only differ in it only (R15, whose sentence
"Hence the value `PS` holds between commands is never read" the spec marks as derived). -/
def Obligations.PsIsUnobservable : Prop :=
  ∀ (k : Nat) (s : State) (p : U32), ∃ (s' : State) (p' : U32),
    runSteps k s = .next s' ∧ runSteps k { s with ps := p } = .next { s' with ps := p' }

/-- SEEDX, RDST and DRAW neither read nor write `PLAT`, `PS` or the rows (R73, R80, R84; the table of R18 is the spec's own
inference). -/
def Obligations.OnlySeedtUsesThePlatformSource : Prop :=
  ∀ (i : Instr) (s s' : State) (plat : Platform) (ps : U32) (rows : PrsRows), (∀ t, i ≠ .seedt t) →
    exec i s = .next s' →
    s'.plat = s.plat ∧ s'.ps = s.ps ∧ s'.rows = s.rows ∧
    exec i { s with plat := plat, ps := ps, rows := rows } = .next { s' with plat := plat, ps := ps, rows := rows }
end

