-- ==== Sys2Proof/Laws/Decode.lean ====
section
/-! SUPPORT. What the decoder can answer, said once for each format. -/

namespace Sys2Proof.Laws

/-- A draw is well formed where its field has at most 65535 bytes (R35). -/
theorem draw_wf_iff (f : List Byte) : (Instr.draw f).wf = true ↔ f.length ≤ 65535 := by
  rw [Instr.wf, decide_eq_true_eq, maxLen]

theorem takeField_append {n : Nat} (f rest : List Byte) (h : f.length = n) :
    takeField n (f ++ rest) = some (f, rest) := by
  subst h; simp [takeField]

theorem takeField_some {n : Nat} {bs f rest : List Byte} (h : takeField n bs = some (f, rest)) :
    f.length = n ∧ bs = f ++ rest := by
  unfold takeField at h
  split at h
  · simp only [Option.some.injEq, Prod.mk.injEq] at h
    obtain ⟨rfl, rfl⟩ := h
    simp_all
  · cases h

theorem takeField_none {n : Nat} {bs : List Byte} : takeField n bs = none ↔ bs.length < n := by
  unfold takeField
  split <;> simp <;> omega

/-- Everything the decoder can answer on a stream that is not empty. -/
theorem decode_cases (op : Byte) (bs : List Byte) :
    (op = opSeedt ∧ decode (op :: bs) = decodeT bs) ∨
    (op = opSeedx ∧ decode (op :: bs) = decodeX bs) ∨
    (op = opRdst ∧ decode (op :: bs) = .command .rdst bs) ∨
    (op = opDraw ∧ decode (op :: bs) = decodeV bs) ∨
    ((op ≠ opSeedt ∧ op ≠ opSeedx ∧ op ≠ opRdst ∧ op ≠ opDraw) ∧ decode (op :: bs) = .illegal op bs) := by
  by_cases h1 : op = opSeedt
  · simp [decode, h1]
  by_cases h2 : op = opSeedx
  · subst h2; simp [decode, opSeedx, opSeedt]
  by_cases h3 : op = opRdst
  · subst h3; simp [decode, opRdst, opSeedx, opSeedt]
  by_cases h4 : op = opDraw
  · subst h4; simp [decode, opDraw, opRdst, opSeedx, opSeedt]
  · simp [decode, h1, h2, h3, h4]

/-- Everything format T can answer. -/
theorem decodeT_cases (bs : List Byte) :
    (bs.length < 4 ∧ decodeT bs = .incomplete) ∨
    (∃ f rest, f.length = 4 ∧ bs = f ++ rest ∧ decodeT bs = .command (.seedt (BitVec.ofNat 32 (beNat f))) rest) := by
  unfold decodeT
  split
  · next f rest h => exact .inr ⟨f, rest, (takeField_some h).1, (takeField_some h).2, rfl⟩
  · next h => exact .inl ⟨takeField_none.mp h, rfl⟩

/-- Everything format X can answer. -/
theorem decodeX_cases (bs : List Byte) :
    (bs.length < 8 ∧ decodeX bs = .incomplete) ∨
    (∃ f rest, f.length = 8 ∧ bs = f ++ rest ∧ decodeX bs = .command (.seedx (BitVec.ofNat 64 (beNat f))) rest) := by
  unfold decodeX
  split
  · next f rest h => exact .inr ⟨f, rest, (takeField_some h).1, (takeField_some h).2, rfl⟩
  · next h => exact .inl ⟨takeField_none.mp h, rfl⟩

/-- Everything format V can answer. -/
theorem decodeV_cases (bs : List Byte) :
    (bs.length < 2 ∧ decodeV bs = .incomplete) ∨
    (∃ len bs', len.length = 2 ∧ bs = len ++ bs' ∧ bs'.length < beNat len ∧ decodeV bs = .incomplete) ∨
    (∃ len f rest, len.length = 2 ∧ f.length = beNat len ∧ bs = len ++ (f ++ rest) ∧
      decodeV bs = .command (.draw f) rest) := by
  unfold decodeV
  split
  · next len bs' h =>
    split
    · next f rest h' =>
      refine .inr (.inr ⟨len, f, rest, (takeField_some h).1, (takeField_some h').1, ?_, rfl⟩)
      rw [(takeField_some h).2, (takeField_some h').2]
    · next h' => exact .inr (.inl ⟨len, bs', (takeField_some h).1, (takeField_some h).2, takeField_none.mp h', rfl⟩)
  · next h => exact .inl ⟨takeField_none.mp h, rfl⟩

end Sys2Proof.Laws
end

