-- ==== Sys2Proof/Laws/Lanes.lean ====
section
/-! SUPPORT. Masks, lanes and the carry test of a 64-bit word, as arithmetic on naturals (R8, R60, R61). -/

namespace Sys2Proof.Laws

open Sys2Proof.Machine

/-- Masking with the low `k` bits is the remainder by `2^k`. -/
theorem and_low_toNat (v m : U64) (k : Nat) (hm : m.toNat = 2 ^ k - 1) : (v &&& m).toNat = v.toNat % 2 ^ k := by
  rw [BitVec.toNat_and, hm, Nat.and_two_pow_sub_one_eq_mod]

/-- A mask and its complement cut a word into two parts that sum to it. -/
theorem and_add_and_not (v m : U64) : (v &&& m).toNat + (v &&& ~~~m).toNat = v.toNat := by
  have hz : (v &&& m) &&& (v &&& ~~~m) = 0 := by
    ext i hi; simp; tauto
  have ho : (v &&& m) ||| (v &&& ~~~m) = v := by
    ext i hi; simp; cases v[i] <;> simp
  have h := BitVec.toNat_add_of_and_eq_zero hz
  rw [BitVec.add_eq_or_of_and_eq_zero _ _ hz, ho] at h
  exact h.symm

/-- Masking the low `k` bits off leaves the multiple of `2^k` below. -/
theorem and_high_toNat (v m : U64) (k : Nat) (hm : m.toNat = 2 ^ k - 1) :
    (v &&& ~~~m).toNat = v.toNat / 2 ^ k * 2 ^ k := by
  have h := and_add_and_not v m
  rw [and_low_toNat v m k hm] at h
  have := Nat.div_add_mod' v.toNat (2 ^ k)
  omega

theorem mixConfig3_narrow : mixConfig3.narrow.toNat = 2 ^ 48 - 1 := by decide
theorem mixConfig3_wide : mixConfig3.wide.toNat = 2 ^ 64 - 1 := by decide
theorem mixConfig2_narrow : mixConfig2.narrow.toNat = 2 ^ 32 - 1 := by decide
theorem mixConfig2_wide : mixConfig2.wide.toNat = 2 ^ 48 - 1 := by decide
@[simp] theorem incConst_toNat : incConst.toNat = 57777 := by decide
@[simp] theorem scalConst_toNat : scalConst.toNat = 56857 := by decide

/-- The carry test asks whether `a` reaches `2^s`: "the test is `a < 2^s`" (R61). -/
theorem carryEscaped_iff (narrow a : U64) (s : Nat) (hm : narrow.toNat = 2 ^ s - 1) :
    carryEscaped narrow s a = true ↔ 2 ^ s ≤ a.toNat := by
  have hp : 0 < 2 ^ s := by positivity
  rw [carryEscaped, bne_iff_ne, ne_eq, ← BitVec.toNat_inj, BitVec.toNat_ushiftRight, and_high_toNat a narrow s hm,
    Nat.shiftRight_eq_div_pow, Nat.mul_div_cancel _ hp]
  simp [Nat.div_eq_zero_iff]

/-- A lane's value (R6). -/
theorem lane_toNat (v : U64) (n : Fin 4) : (lane v n).toNat = v.toNat / 2 ^ (16 * n.val) % 2 ^ 16 := by
  simp [lane, Nat.shiftRight_eq_div_pow]

/-- Every bit of a word after a lane write (R8). -/
theorem setLane_getLsbD (v : U64) (n : Fin 4) (x : U16) (i : Nat) (hi : i < 64) :
    (setLane v n x).getLsbD i =
      if 16 * n.val ≤ i ∧ i < 16 * n.val + 16 then x.getLsbD (i - 16 * n.val) else v.getLsbD i := by
  have hm : (0xFFFF : U64) = (BitVec.allOnes 16).setWidth 64 := by decide
  simp only [setLane, hm, BitVec.getLsbD_or, BitVec.getLsbD_and, BitVec.getLsbD_not, BitVec.getLsbD_shiftLeft,
    BitVec.getLsbD_setWidth, BitVec.getLsbD_allOnes]
  by_cases h1 : 16 * n.val ≤ i
  · by_cases h2 : i < 16 * n.val + 16
    · have h3 : i - 16 * n.val < 16 := by omega
      have h4 : i - 16 * n.val < 64 := by omega
      have h5 : ¬ i < 16 * n.val := by omega
      simp [h1, h2, h3, h4, h5, hi]
    · have h3 : ¬ i - 16 * n.val < 16 := by omega
      have h5 : x.getLsbD (i - 16 * n.val) = false := BitVec.getLsbD_of_ge _ _ (by omega)
      simp [h2, h3, h5, hi]
  · have h5 : i < 16 * n.val := by omega
    simp [h1, h5, hi]

theorem lane_getLsbD (v : U64) (n : Fin 4) (i : Nat) :
    (lane v n).getLsbD i = (decide (i < 16) && v.getLsbD (16 * n.val + i)) := by
  simp [lane]

/-- A lane written is the lane read (R8). -/
@[simp] theorem lane_setLane_same (v : U64) (n : Fin 4) (x : U16) : lane (setLane v n x) n = x := by
  apply BitVec.eq_of_getLsbD_eq
  intro i hi
  have hn := n.isLt
  rw [lane_getLsbD, setLane_getLsbD _ _ _ _ (by omega)]
  have h1 : 16 * n.val ≤ 16 * n.val + i ∧ 16 * n.val + i < 16 * n.val + 16 := by omega
  simp [hi, h1]

/-- Writing a lane leaves the other lanes (R8). -/
theorem lane_setLane_ne (v : U64) (n k : Fin 4) (x : U16) (h : k ≠ n) : lane (setLane v n x) k = lane v k := by
  apply BitVec.eq_of_getLsbD_eq
  intro i hi
  have hk := k.isLt
  have hne : k.val ≠ n.val := fun e => h (Fin.ext e)
  rw [lane_getLsbD, lane_getLsbD, setLane_getLsbD _ _ _ _ (by omega)]
  have h1 : ¬ (16 * n.val ≤ 16 * k.val + i ∧ 16 * k.val + i < 16 * n.val + 16) := by omega
  simp [h1]

/-- The value of a word after its guard write (R62, R73). -/
theorem setLane_guard_toNat (v : U64) : (setLane v 3 1).toNat = 2 ^ 48 + v.toNat % 2 ^ 48 := by
  have h : setLane v 3 1 = BitVec.ofNat 64 (2 ^ 48) ||| (v &&& 0xFFFFFFFFFFFF) := by
    have h1 : ~~~((0xFFFF : U64) <<< (16 * (3 : Fin 4).val)) = 0xFFFFFFFFFFFF := by decide
    have h2 : ((1 : U16).setWidth 64) <<< (16 * (3 : Fin 4).val) = BitVec.ofNat 64 (2 ^ 48) := by decide
    rw [setLane, h1, h2, BitVec.or_comm]
  have hz : BitVec.ofNat 64 (2 ^ 48) &&& (v &&& 0xFFFFFFFFFFFF) = 0 := by
    rw [BitVec.and_comm, BitVec.and_assoc]
    have : (0xFFFFFFFFFFFF : U64) &&& BitVec.ofNat 64 (2 ^ 48) = 0 := by decide
    rw [this]; simp
  rw [h, ← BitVec.add_eq_or_of_and_eq_zero _ _ hz, BitVec.toNat_add_of_and_eq_zero hz,
    and_low_toNat v 0xFFFFFFFFFFFF 48 (by decide)]
  rfl

end Sys2Proof.Laws
end

