-- ==== Sys2Proof/Laws/Draw.lean ====
section
/-! SUPPORT. The draw on values: the lengths of a natural, the 16-bit clear, and the loop of the wide arm (R8, R82). -/

namespace Sys2Proof.Laws

open Sys2Proof.Machine

/-- `BitLen(m) <= k` says `m < 2^k` (R8). -/
theorem bitLen_le_iff (m k : Nat) : bitLen m ≤ k ↔ m < 2 ^ k := by
  unfold bitLen
  split
  · next h => subst h; simp
  · next h => rw [Nat.succ_le_iff, Nat.log2_lt h]

/-- `ByteLen(m) <= k` says `m` fits `k` bytes (R8). -/
theorem byteLen_le_iff (m k : Nat) : byteLen m ≤ k ↔ m < 2 ^ (8 * k) := by
  rw [← bitLen_le_iff, byteLen]; omega

/-- "`len <= 2` iff `m <= 0xFFFF`" (R80). -/
theorem byteLen_le_two (m : Nat) : byteLen m ≤ 2 ↔ m ≤ 0xFFFF := by
  rw [byteLen_le_iff]; norm_num; omega

/-- The 32 bits a wide pass extracts, as arithmetic (R82). -/
theorem drawWord_eq (rr : U64) : drawWord rr = rr.toNat / 2 ^ 16 % 2 ^ 32 := by
  rw [drawWord, and_low_toNat _ _ 32 (by decide), BitVec.toNat_ushiftRight, Nat.shiftRight_eq_div_pow]

theorem drawWord_lt (rr : U64) : drawWord rr < 2 ^ 32 := by
  rw [drawWord_eq]; exact Nat.mod_lt _ (by positivity)

/-- An OR into the bits above an accumulator is a sum (R82: "the OR is a concatenation"). -/
theorem or_shift_eq_add (acc x k : Nat) (h : acc < 2 ^ k) : acc ||| (x <<< k) = acc + x * 2 ^ k := by
  rw [Nat.lor_comm, ← Nat.shiftLeft_add_eq_or_of_lt h, Nat.shiftLeft_eq, Nat.add_comm]

/-- The loop of the wide arm from an even loop variable `2 * j0` (R82): it runs MIX3 `n` times and adds each extracted word above the
ones before it. -/
theorem drawWideLoop_eq (len16 n : Nat) : ∀ (fuel j0 acc : Nat) (rr : U64),
    n = (len16 - 2 * j0 + 1) / 2 → n ≤ fuel → acc < 2 ^ (32 * j0) →
    drawWideLoop len16 fuel (2 * j0) acc rr =
      (acc + ∑ j ∈ Finset.range n, drawWord (mix3^[j + 1] rr) * 2 ^ (32 * (j0 + j)), mix3^[n] rr) := by
  induction n with
  | zero =>
    intro fuel j0 acc rr hn _ _
    cases fuel with
    | zero => simp [drawWideLoop]
    | succ fuel =>
      have : ¬ 2 * j0 < len16 := by omega
      simp [drawWideLoop, this]
  | succ n ih =>
    intro fuel j0 acc rr hn hf hacc
    obtain ⟨fuel, rfl⟩ : ∃ g, fuel = g + 1 := ⟨fuel - 1, by omega⟩
    have hi : 2 * j0 < len16 := by omega
    have hw := drawWord_lt (mix3 rr)
    have hacc' : acc + drawWord (mix3 rr) * 2 ^ (32 * j0) < 2 ^ (32 * (j0 + 1)) := by
      rw [Nat.mul_add, pow_add, Nat.mul_comm]
      generalize 2 ^ (32 * j0) = P at hacc ⊢
      calc acc + P * drawWord (mix3 rr) < P + P * drawWord (mix3 rr) := Nat.add_lt_add_right hacc _
        _ = P * (drawWord (mix3 rr) + 1) := by ring
        _ ≤ P * 2 ^ (32 * 1) := Nat.mul_le_mul_left _ hw
    have hsum : ∑ j ∈ Finset.range n, drawWord (mix3^[j + 1] (mix3 rr)) * 2 ^ (32 * (j0 + 1 + j)) =
        ∑ j ∈ Finset.range n, drawWord (mix3^[j + 1 + 1] rr) * 2 ^ (32 * (j0 + (j + 1))) :=
      Finset.sum_congr rfl fun j _ => by
        rw [Function.iterate_succ_apply mix3 (j + 1), show j0 + (j + 1) = j0 + 1 + j by omega]
    rw [drawWideLoop, if_pos hi, show 16 * (2 * j0) = 32 * j0 by omega]
    dsimp only
    rw [or_shift_eq_add _ _ _ hacc, show 2 * j0 + 2 = 2 * (j0 + 1) by omega,
      ih fuel (j0 + 1) _ _ (by omega) (by omega) hacc', hsum, Finset.sum_range_succ', Nat.add_zero, Function.iterate_succ_apply,
      Nat.add_assoc, Nat.add_comm (_ * _)]
    rfl

/-- Every bit of a natural after the 16-bit clear (R82, R83). -/
theorem clear16_testBit (acc pos k : Nat) :
    (clear16 acc pos).testBit k = (acc.testBit k && !(decide (pos ≤ k) && decide (k < pos + 16))) := by
  have hm : (0xFFFF : Nat) = 2 ^ 16 - 1 := rfl
  rw [clear16, hm, Nat.testBit_xor, Nat.testBit_and, Nat.testBit_shiftLeft, Nat.testBit_two_pow_sub_one]
  by_cases h1 : pos ≤ k <;> by_cases h2 : k < pos + 16 <;> cases acc.testBit k <;> simp [h1, h2] <;> omega

/-- The 16-bit clear, as arithmetic: the part below `pos` and the part from `pos + 16` up (R82, R83). -/
theorem clear16_eq (acc pos : Nat) :
    clear16 acc pos = acc / 2 ^ (pos + 16) * 2 ^ (pos + 16) + acc % 2 ^ pos := by
  have hlt : acc % 2 ^ pos < 2 ^ (pos + 16) :=
    (Nat.mod_lt _ (by positivity)).trans_le (Nat.pow_le_pow_right (by norm_num) (by omega))
  rw [Nat.mul_comm, Nat.two_pow_add_eq_or_of_lt hlt]
  apply Nat.eq_of_testBit_eq
  intro k
  rw [clear16_testBit, Nat.testBit_or, Nat.testBit_two_pow_mul, Nat.testBit_div_two_pow, Nat.testBit_mod_two_pow]
  by_cases h1 : pos + 16 ≤ k
  · have h2 : ¬ k < pos := by omega
    have h3 : ¬ k < pos + 16 := by omega
    simp [h1, h2, h3]
  · by_cases h2 : k < pos
    · have h3 : ¬ pos ≤ k := by omega
      simp [h1, h2, h3]
    · have h3 : pos ≤ k := by omega
      have h4 : k < pos + 16 := by omega
      simp [h1, h2, h3, h4]

end Sys2Proof.Laws
end

