-- ==== Sys2Proof/Laws/PerInstr.lean ====
section
/-! SUPPORT. Facts about every command as syntax, one lemma per constructor of Instr. -/

namespace Sys2Proof.Laws.CommandLength

/-- The length of a command's bytes is the one R42 finds from its first bytes. -/
def Statement (i : Instr) : Prop :=
  i.wf = true →
    (encode i).length = commandLength ((encode i).getD 0 0) ((encode i).getD 1 0) ((encode i).getD 2 0)

theorem seedt (t : U32) : Statement (.seedt t) := by
  intro _; simp [encode, commandLength]

theorem seedx (x : U64) : Statement (.seedx x) := by
  intro _; simp [encode, commandLength, opSeedt, opSeedx]

theorem rdst : Statement .rdst := by
  intro _; decide

theorem draw (modulus : List Byte) : Statement (.draw modulus) := by
  intro h
  have hl := (draw_wf_iff modulus).mp h
  have hb : beNat (beBytes 2 modulus.length) = modulus.length := by
    rw [beNat_beBytes]; omega
  have hc : ∀ b1 b2 : Byte, commandLength opDraw b1 b2 = 3 + beNat [b1, b2] := fun b1 b2 => by
    simp [commandLength, opDraw, opRdst, opSeedx, opSeedt]
  show (opDraw :: (beBytes 2 modulus.length ++ modulus)).length = commandLength opDraw _ _
  rw [hc, List.length_cons, List.length_append, beBytes_length]
  simp only [beBytes] at hb
  simp only [encode, beBytes, List.cons_append, List.nil_append, List.getD_cons_succ, List.getD_cons_zero]
  rw [hb]; omega

end Sys2Proof.Laws.CommandLength
end

