-- ==== Sys2Proof/Laws/State.lean ====
section
/-! SUPPORT. One lemma per field per update of State, so that no later proof unfolds a record update. -/

namespace Sys2Proof.Laws

open Sys2Proof.Machine

@[simp] theorem emit_rr (a : Byte) (b : List Byte) (s : State) : (emit a b s).rr = s.rr := rfl
@[simp] theorem emit_plat (a : Byte) (b : List Byte) (s : State) : (emit a b s).plat = s.plat := rfl
@[simp] theorem emit_ps (a : Byte) (b : List Byte) (s : State) : (emit a b s).ps = s.ps := rfl
@[simp] theorem emit_rows (a : Byte) (b : List Byte) (s : State) : (emit a b s).rows = s.rows := rfl
@[simp] theorem emit_cmd (a : Byte) (b : List Byte) (s : State) : (emit a b s).cmd = s.cmd := rfl
@[simp] theorem emit_rsp (a : Byte) (b : List Byte) (s : State) : (emit a b s).rsp = s.rsp ++ a :: b := rfl

@[simp] theorem respond_rr (b : List Byte) (s : State) : (respond b s).rr = s.rr := rfl
@[simp] theorem respond_plat (b : List Byte) (s : State) : (respond b s).plat = s.plat := rfl
@[simp] theorem respond_ps (b : List Byte) (s : State) : (respond b s).ps = s.ps := rfl
@[simp] theorem respond_rows (b : List Byte) (s : State) : (respond b s).rows = s.rows := rfl
@[simp] theorem respond_cmd (b : List Byte) (s : State) : (respond b s).cmd = s.cmd := rfl
@[simp] theorem respond_rsp (b : List Byte) (s : State) : (respond b s).rsp = s.rsp ++ statusOk :: b := rfl

@[simp] theorem raiseIllegal_rr (s : State) : (raiseIllegal s).rr = s.rr := rfl
@[simp] theorem raiseIllegal_plat (s : State) : (raiseIllegal s).plat = s.plat := rfl
@[simp] theorem raiseIllegal_ps (s : State) : (raiseIllegal s).ps = s.ps := rfl
@[simp] theorem raiseIllegal_rows (s : State) : (raiseIllegal s).rows = s.rows := rfl
@[simp] theorem raiseIllegal_cmd (s : State) : (raiseIllegal s).cmd = s.cmd := rfl
@[simp] theorem raiseIllegal_rsp (s : State) : (raiseIllegal s).rsp = s.rsp ++ [statusIllegal] := rfl

@[simp] theorem writeRR_rr (v : U64) (s : State) : (writeRR v s).rr = v := rfl
@[simp] theorem writeRR_plat (v : U64) (s : State) : (writeRR v s).plat = s.plat := rfl
@[simp] theorem writeRR_ps (v : U64) (s : State) : (writeRR v s).ps = s.ps := rfl
@[simp] theorem writeRR_rows (v : U64) (s : State) : (writeRR v s).rows = s.rows := rfl
@[simp] theorem writeRR_cmd (v : U64) (s : State) : (writeRR v s).cmd = s.cmd := rfl
@[simp] theorem writeRR_rsp (v : U64) (s : State) : (writeRR v s).rsp = s.rsp := rfl

@[simp] theorem hostReset_rr (strap : Bool) (p : U32) (s : State) : (hostReset strap p s).rr = 0 := rfl
@[simp] theorem hostReset_plat (strap : Bool) (p : U32) (s : State) : (hostReset strap p s).plat = platOfStrap strap := rfl
@[simp] theorem hostReset_ps (strap : Bool) (p : U32) (s : State) : (hostReset strap p s).ps = p := rfl
@[simp] theorem hostReset_rows (strap : Bool) (p : U32) (s : State) : (hostReset strap p s).rows = s.rows := rfl
@[simp] theorem hostReset_cmd (strap : Bool) (p : U32) (s : State) : (hostReset strap p s).cmd = [] := rfl
@[simp] theorem hostReset_rsp (strap : Bool) (p : U32) (s : State) : (hostReset strap p s).rsp = [] := rfl

@[simp] theorem hostSend_rr (b : List Byte) (s : State) : (hostSend b s).rr = s.rr := rfl
@[simp] theorem hostSend_plat (b : List Byte) (s : State) : (hostSend b s).plat = s.plat := rfl
@[simp] theorem hostSend_ps (b : List Byte) (s : State) : (hostSend b s).ps = s.ps := rfl
@[simp] theorem hostSend_rows (b : List Byte) (s : State) : (hostSend b s).rows = s.rows := rfl
@[simp] theorem hostSend_cmd (b : List Byte) (s : State) : (hostSend b s).cmd = s.cmd ++ b := rfl
@[simp] theorem hostSend_rsp (b : List Byte) (s : State) : (hostSend b s).rsp = s.rsp := rfl

@[simp] theorem hostTake_rr (n : Nat) (s : State) : ((hostTake n s).2).rr = s.rr := rfl
@[simp] theorem hostTake_plat (n : Nat) (s : State) : ((hostTake n s).2).plat = s.plat := rfl
@[simp] theorem hostTake_ps (n : Nat) (s : State) : ((hostTake n s).2).ps = s.ps := rfl
@[simp] theorem hostTake_rows (n : Nat) (s : State) : ((hostTake n s).2).rows = s.rows := rfl
@[simp] theorem hostTake_cmd (n : Nat) (s : State) : ((hostTake n s).2).cmd = s.cmd := rfl
@[simp] theorem hostTake_rsp (n : Nat) (s : State) : ((hostTake n s).2).rsp = s.rsp.drop n := rfl

@[simp] theorem prsSeed_rr (t : U32) (s : State) : (prsSeed t s).rr = s.rr := rfl
@[simp] theorem prsSeed_plat (t : U32) (s : State) : (prsSeed t s).plat = s.plat := rfl
@[simp] theorem prsSeed_ps (t : U32) (s : State) : (prsSeed t s).ps = t := rfl
@[simp] theorem prsSeed_rows (t : U32) (s : State) : (prsSeed t s).rows = s.rows := rfl
@[simp] theorem prsSeed_cmd (t : U32) (s : State) : (prsSeed t s).cmd = s.cmd := rfl
@[simp] theorem prsSeed_rsp (t : U32) (s : State) : (prsSeed t s).rsp = s.rsp := rfl

@[simp] theorem prsNext_rr (s : State) : ((prsNext s).2).rr = s.rr := rfl
@[simp] theorem prsNext_plat (s : State) : ((prsNext s).2).plat = s.plat := rfl
@[simp] theorem prsNext_ps (s : State) : ((prsNext s).2).ps = prsAdvance (prsRow s.rows s.plat) s.ps := rfl
@[simp] theorem prsNext_rows (s : State) : ((prsNext s).2).rows = s.rows := rfl
@[simp] theorem prsNext_cmd (s : State) : ((prsNext s).2).cmd = s.cmd := rfl
@[simp] theorem prsNext_rsp (s : State) : ((prsNext s).2).rsp = s.rsp := rfl

@[simp] theorem consumeTo_rr (b : List Byte) (s : State) : (consumeTo b s).rr = s.rr := rfl
@[simp] theorem consumeTo_plat (b : List Byte) (s : State) : (consumeTo b s).plat = s.plat := rfl
@[simp] theorem consumeTo_ps (b : List Byte) (s : State) : (consumeTo b s).ps = s.ps := rfl
@[simp] theorem consumeTo_rows (b : List Byte) (s : State) : (consumeTo b s).rows = s.rows := rfl
@[simp] theorem consumeTo_cmd (b : List Byte) (s : State) : (consumeTo b s).cmd = b := rfl
@[simp] theorem consumeTo_rsp (b : List Byte) (s : State) : (consumeTo b s).rsp = s.rsp := rfl

@[simp] theorem withFetchWord_rr (s : State) (n w : Nat) : (s.withFetchWord n w).rr = s.rr := rfl
@[simp] theorem withFetchWord_plat (s : State) (n w : Nat) : (s.withFetchWord n w).plat = s.plat := rfl
@[simp] theorem withFetchWord_ps (s : State) (n w : Nat) : (s.withFetchWord n w).ps = s.ps := rfl
@[simp] theorem withFetchWord_rows (s : State) (n w : Nat) : (s.withFetchWord n w).rows = s.rows := rfl
@[simp] theorem withFetchWord_cmd (s : State) (n w : Nat) : (s.withFetchWord n w).cmd = tableWordBytes n w ++ s.cmd := rfl
@[simp] theorem withFetchWord_rsp (s : State) (n w : Nat) : (s.withFetchWord n w).rsp = s.rsp := rfl

@[simp] theorem hostTake_bytes (n : Nat) (s : State) : (hostTake n s).1 = s.rsp.take n := rfl
@[simp] theorem prsNext_output (s : State) :
    (prsNext s).1 = prsOutput (prsRow s.rows s.plat) (prsAdvance (prsRow s.rows s.plat) s.ps) := rfl

@[simp] theorem resetWith_rr (r : PrsRows) (b : Bool) (p : U32) : (State.resetWith r b p).rr = 0 := rfl
@[simp] theorem resetWith_plat (r : PrsRows) (b : Bool) (p : U32) : (State.resetWith r b p).plat = platOfStrap b := rfl
@[simp] theorem resetWith_ps (r : PrsRows) (b : Bool) (p : U32) : (State.resetWith r b p).ps = p := rfl
@[simp] theorem resetWith_rows (r : PrsRows) (b : Bool) (p : U32) : (State.resetWith r b p).rows = r := rfl
@[simp] theorem resetWith_cmd (r : PrsRows) (b : Bool) (p : U32) : (State.resetWith r b p).cmd = [] := rfl
@[simp] theorem resetWith_rsp (r : PrsRows) (b : Bool) (p : U32) : (State.resetWith r b p).rsp = [] := rfl

end Sys2Proof.Laws
end

