-- ==== Sys2Proof/Laws/Step.lean ====
section
/-! SUPPORT. What a command and a step can do, said once. -/

namespace Sys2Proof.Laws

open Sys2Proof.Machine Sys2Proof.Safety

/-- Everything a step can do (R30, R40, R45). -/
theorem step_cases (s : State) :
    (∃ i rest, decode s.cmd = .command i rest ∧ step s = exec i (consumeTo rest s)) ∨
    (∃ op rest, decode s.cmd = .illegal op rest ∧ step s = .next (raiseIllegal (consumeTo rest s))) ∨
    (decode s.cmd = .incomplete ∧ step s = .next s) := by
  unfold step fetchCommand
  split
  · next i rest h => exact .inl ⟨i, rest, h, rfl⟩
  · next op rest h => exact .inr (.inl ⟨op, rest, h, rfl⟩)
  · next h => exact .inr (.inr ⟨h, rfl⟩)

/-- Everything SEEDT can do, field by field (R18, R71). -/
theorem execSeedt_next {t : U32} {s s' : State} (h : execSeedt t s = .next s') :
    s'.rr = setLane (seedtPhase 0 t (seedtPhase 1 t s)).rr 3 1 ∧ s'.ps = prsAdvance (prsRow s.rows s.plat) t ∧
    s'.plat = s.plat ∧ s'.rows = s.rows ∧ s'.cmd = s.cmd ∧ s'.rsp = s.rsp ++ [statusOk] := by
  cases h; exact ⟨rfl, rfl, rfl, rfl, rfl, rfl⟩

/-- One phase of SEEDT, field by field (R71). -/
theorem seedtPhase_fields (n : Fin 4) (t : U32) (s : State) :
    seedtPhase n t s =
      { s with
        rr := mix3 (setLane s.rr n ((prsOutput (prsRow s.rows s.plat)
          (prsAdvance (prsRow s.rows s.plat) t)).setWidth 16))
        ps := prsAdvance (prsRow s.rows s.plat) t } := rfl

/-- Everything SEEDX can do, field by field (R18, R73). -/
theorem execSeedx_next {x : U64} {s s' : State} (h : execSeedx x s = .next s') :
    s'.rr = setLane x 3 1 ∧ s'.ps = s.ps ∧ s'.plat = s.plat ∧ s'.rows = s.rows ∧ s'.cmd = s.cmd ∧
    s'.rsp = s.rsp ++ statusOk :: beBytes 8 (setLane x 3 1).toNat := by
  cases h; exact ⟨rfl, rfl, rfl, rfl, rfl, rfl⟩

/-- Everything RDST can do (R18, R84). -/
theorem execRdst_next {s s' : State} (h : execRdst s = .next s') :
    s' = respond (beBytes 8 s.rr.toNat) s := by
  cases h; rfl

/-- Everything DRAW can do, field by field (R18, R80). -/
theorem execDraw_next {f : List Byte} {s s' : State} (h : execDraw f s = .next s') :
    s'.rr = (drawValue (beNat f) s.rr).2 ∧ s'.ps = s.ps ∧ s'.plat = s.plat ∧ s'.rows = s.rows ∧ s'.cmd = s.cmd ∧
    s'.rsp = s.rsp ++ statusOk :: beBytes f.length (drawValue (beNat f) s.rr).1 := by
  cases h; exact ⟨rfl, rfl, rfl, rfl, rfl, rfl⟩

@[simp] theorem runSteps_zero (s : State) : runSteps 0 s = .next s := rfl

/-- Running one more step first. -/
theorem runSteps_succ {k : Nat} {s s' : State} (h : step s = .next s') : runSteps (k + 1) s = runSteps k s' := by
  have h' : Sys2Proof.core.step s = .next s' := h
  simp only [runSteps, Host.Core.run, h']
  rfl

end Sys2Proof.Laws
end

