-- ==== Sys2Proof/Tests/Slice0.lean ====
section
/-! SUPPORT. The model's own tests. Expected results are from spec/95_test_vectors.md (the V and P numbers) and from the
encodings of 30_encoding.md; the witnesses show that the hypotheses of each statement can be met. -/

namespace Sys2Proof.Tests

open Sys2Proof.Machine Sys2Proof.Safety Sys2Proof.Laws

/-- The reset state with a strap, an `RR` and bytes in the command stream. -/
def start (strap : Bool) (rr : U64) (cmd : List Byte) : State :=
  { State.resetWith defaultRows strap 0 with rr := rr, cmd := cmd }

/-- `RR` and the response bytes after an outcome. -/
def seen : Host.Outcome State Fault Refusal → Option (U64 × List Byte)
  | .next s => some (s.rr, s.rsp)
  | .fault _ => none
  | .refused _ => none

/-! ### Well-formedness (R35): the one check -/

theorem test_wf_refuses_a_65536_byte_modulus : (Instr.draw (List.replicate 65536 0)).wf = false := by
  rw [Instr.wf, List.length_replicate]; decide

theorem test_wf_takes_a_65535_byte_modulus : (Instr.draw (List.replicate 65535 0)).wf = true := by
  rw [Instr.wf, List.length_replicate]; decide

/-! ### Decoding: words written out from R31 to R35 (V95 to V98, V103, V107 to V109) -/

theorem test_decode_seedt :
    decode [0b00000001, 0b00111011, 0b10011010, 0b11001010, 0b00000000] = .command (.seedt 0x3B9ACA00) [] := by decide
theorem test_decode_seedx :
    decode [0x02, 0x12, 0x34, 0x56, 0x78, 0x9A, 0xBC, 0xDE, 0xF0] = .command (.seedx 0x123456789ABCDEF0) [] := by decide
theorem test_decode_rdst : decode [0b00000011, 0x03] = .command .rdst [0x03] := by decide
theorem test_decode_draw : decode [0b00000100, 0x00, 0x02, 0x03, 0xE8] = .command (.draw [0x03, 0xE8]) [] := by decide
theorem test_decode_draw_length_high_byte_first :
    decode [0x04, 0x01, 0x00, 0x07] = .incomplete := by decide
theorem test_decode_by_the_first_byte_only : decode [0x04, 0x00, 0x01, 0x03] = .command (.draw [0x03]) [] := by decide
theorem test_decode_reserved : decode [0x00, 0x03] = .illegal 0x00 [0x03] ∧ decode [0xFF] = .illegal 0xFF [] := by decide
theorem test_decode_truncated : decode [0x01, 0x3B, 0x9A] = .incomplete ∧ decode [0x04, 0x00, 0x02, 0x03] = .incomplete := by
  decide
theorem test_encode_seedt : encode (.seedt 1000000000) = [0x01, 0x3B, 0x9A, 0xCA, 0x00] := by decide
theorem test_encode_draw_padded : encode (.draw [0, 0, 0x03, 0xE8]) = [0x04, 0x00, 0x04, 0x00, 0x00, 0x03, 0xE8] := by decide
theorem test_table_words : decodeTableWord 40 0x00CA9A3B01 = some (.seedt 1000000000) ∧ decodeTableWord 8 2 = some (.seedx 0) ∧
    decodeTableWord 8 3 = some .rdst ∧ decodeTableWord 8 4 = some (.draw []) ∧ decodeTableWord 8 5 = none := by decide

/-! ### Internal operations (V12, V17, V23, V32, V33) -/

theorem test_mix3_carry_in_pass_b : mix3 0x0001123456789ABC = 0x00012A19CBC3ACA5 := by decide
theorem test_mix2_carry_in_pass_a : mix2 0x00010005FFFFFFFF = 0x00010001C3CCAA30 := by decide
theorem test_mix2_carry_in_pass_b : mix2 0x0001ABCD12345678 = 0x00010FCBEDE60A01 := by decide
theorem test_prs_windows : prsAdvance defaultWindowsRow 0x3B9ACA00 = 0xC8FE40C3 ∧ prsOutput defaultWindowsRow 0xC8FE40C3 = 18686 := by
  decide
theorem test_prs_linux : prsAdvance defaultLinuxRow 0x3B9ACA00 = 0x46743239 ∧ prsOutput defaultLinuxRow 0x46743239 = 1182020153 := by
  decide

/-! ### One step per command (V52, V58b, V62, V66, V74, V99, V104, V107) -/

theorem test_seedt_linux :
    seen (step (start false 0 [0x01, 0x3B, 0x9A, 0xCA, 0x00])) = some (0x0001D15DED8DDDDA, [0x00]) := by decide
theorem test_seedt_windows_on_used_state :
    seen (exec (.seedt 1000000000) (start true 0x0001AAAABBBBCCCC [])) = some (0x0001859EC428ED17, [0x00]) := by decide
theorem test_seedx :
    seen (exec (.seedx 0x123456789ABCDEF0) (start false 7 [])) =
      some (0x000156789ABCDEF0, [0x00, 0x00, 0x01, 0x56, 0x78, 0x9A, 0xBC, 0xDE, 0xF0]) := by decide
theorem test_rdst_after_reset :
    seen (step (start true 0 [0x03])) = some (0, [0x00, 0, 0, 0, 0, 0, 0, 0, 0]) := by decide
theorem test_draw_small_padded :
    seen (step (start false 0x0001000000000000 [0x04, 0x00, 0x04, 0x00, 0x00, 0x03, 0xE8])) =
      some (0x00010000C3CD8849, [0x00, 0x00, 0x00, 0x00, 0x7D]) := by decide
theorem test_draw_wide_stray_bits :
    drawValue 4294967297 0x0001000000000000 = (1459667903, 0x0001A9E01F0F256A) := by decide
theorem test_reserved_byte : step (start false 5 [0x05, 0x03]) = .next { start false 5 [0x03] with rsp := [0xFF] } := by rfl
theorem test_truncated_waits : step (start false 5 [0x01, 0x3B, 0x9A]) = .next (start false 5 [0x01, 0x3B, 0x9A]) := by rfl

/-! ### Witnesses: a state and operands that meet the hypotheses of each statement -/

theorem witness_DecodeOfEncodeIsTheCommand : (Instr.draw [0x03]).wf = true ∧ (Instr.seedt 0).wf = true := by decide
theorem witness_DecodedBytesAreTheEncoding : decode [0x03, 0x05] = .command .rdst [0x05] := by decide
theorem witness_OperandsAssembleBigEndian :
    ([] : List Byte).length = (0x00 : Byte).toNat * 2 ^ 8 + (0x00 : Byte).toNat ∧
    (List.replicate 256 (0 : Byte)).length = (0x01 : Byte).toNat * 2 ^ 8 + (0x00 : Byte).toNat :=
  ⟨by decide, by rw [List.length_replicate]; decide⟩
theorem witness_StreamsSplitInExactlyOneWay :
    (∀ u ∈ [StreamUnit.reserved 0x05, .command .rdst], u.Legal) ∧ decode [0x01] = .incomplete ∧
    ([0x05, 0x03, 0x01] : List Byte) = [StreamUnit.reserved 0x05, .command .rdst].flatMap StreamUnit.bytes ++ [0x01] := by
  refine ⟨?_, by decide, by decide⟩
  intro u hu
  rcases List.mem_cons.mp hu with rfl | hu
  · exact Or.inr (by decide)
  · rw [List.mem_singleton.mp hu]; exact rfl
theorem witness_ListingsAssemble_in_range :
    byteLen 0 ≤ 65535 ∧ byteLen 255 ≤ 1 ∧ byteLen 0 ≤ 65535 ∧ (2 ^ 32 - 1 : Nat) < 2 ^ 32 ∧ (2 ^ 64 - 1 : Nat) < 2 ^ 64 := by decide
theorem witness_ListingsAssemble_out_of_range :
    (1 < byteLen 256 ∨ 65535 < 1) ∧ (65536 < byteLen 0 ∨ 65535 < 65536) := by decide
theorem witness_ListingsAssemble_too_long : 65535 < byteLen (2 ^ (8 * 65535)) := by
  rw [← Nat.not_le, byteLen_le_iff]; exact lt_irrefl _
theorem witness_ByteLenIsLeast : (255 : Nat) < 2 ^ 8 ∧ (256 : Nat) < 2 ^ 9 ∧ (0 : Nat) < 2 ^ (8 * 0) := by decide
theorem witness_StepRunsTheDecodedCommand : decode (start false 0 [0x04, 0, 0, 0x03]).cmd = .command (.draw []) [0x03] := by decide
theorem witness_ReservedByteRaisesIllegalCommand :
    (start false 0 [0x05, 0x03]).cmd = 0x05 :: [0x03] ∧ Reserved 0x05 ∧ Reserved 0x00 ∧ Reserved 0xFF ∧
    ¬ Reserved 0x01 ∧ ¬ Reserved 0x04 := by
  refine ⟨rfl, ?_, ?_, ?_, ?_, ?_⟩ <;> unfold Reserved <;> decide
theorem witness_WaitsUntilTheMissingBytesArrive :
    (Instr.draw [0x03]).wf = true ∧ ([0x03] : List Byte) ≠ [] ∧
    encode (.draw [0x03]) = (start false 0 [0x04, 0x00, 0x01]).cmd ++ [0x03] := by decide
theorem witness_ResponseLengthIsFixedByTheCommand :
    exec (.draw []) (start false 0 []) = .next { start false (mix2 0) [] with rsp := [0x00] } := by rfl
theorem witness_CommandsRunInStreamOrder :
    (∀ i ∈ [Instr.rdst, .draw []], i.wf = true) ∧
    (start false 0 [0x03, 0x04, 0, 0, 0x01]).cmd = [Instr.rdst, .draw []].flatMap encode ++ [0x01] := by decide
theorem witness_SendingEarlyChangesNothing :
    ¬ Waiting (start false 0 [0x03]) ∧ ∃ s', step (start false 0 [0x03]) = .next s' := by
  refine ⟨?_, _, rfl⟩; unfold Waiting; decide
theorem witness_ReadingResponsesCommutesWithAStep :
    1 ≤ { start false 0 [0x03] with rsp := [0x00] }.rsp.length ∧
    ∃ s', step { start false 0 [0x03] with rsp := [0x00] } = .next s' := ⟨by decide, _, rfl⟩
theorem witness_PlacedTableWordRunsNext : decodeTableWord 24 0x000004 = some (.draw []) := by decide
theorem witness_NothingSurvivesReset : (start false 0 []).rows = (start true 9 [0x01]).rows := rfl
theorem witness_PrsNextAdvancesThenOutputs :
    defaultWindowsRow = (match (start true 0 []).plat with
      | .linux => (start true 0 []).rows.linux
      | .windows => (start true 0 []).rows.windows) := rfl
theorem witness_PrsArithmeticIsBounded :
    prsModulus defaultLinuxRow = 2 ^ 31 ∧ prsModulus defaultWindowsRow = 2 ^ 32 := by decide
theorem witness_PassIsCarrySelect :
    (0xFFFFFFFF : U64).toNat < 2 ^ mixConfig2.shift ∧
    2 ^ mixConfig2.shift ≤ (0x100000000 : U64).toNat ∧ (0x100000000 : U64).toNat < 2 ^ (mixConfig2.shift + 16) ∧
    2 ^ mixConfig3.shift ≤ (0xFFFFFFFFFFFFFFFF : U64).toNat ∧
    (0xFFFFFFFFFFFFFFFF : U64).toNat < 2 ^ (mixConfig3.shift + 16) := by decide
theorem witness_NoOverflowInsideAStep :
    carryEscaped mixConfig2.narrow mixConfig2.shift (((0 : U64) &&& mixConfig2.narrow) + incConst) = false ∧
    carryEscaped mixConfig2.narrow mixConfig2.shift (((0xFFFFFFFF : U64) &&& mixConfig2.narrow) + incConst) = true := by decide
theorem witness_Mix3ClosedForm :
    (0xABCD000000000000 : U64).toNat % 2 ^ 48 = (0 : U64).toNat % 2 ^ 48 ∧ mix3 0xABCD000000000000 = mix3 0 ∧
    (2 ^ 48 - 1 : Nat) < 2 ^ 48 := by decide
theorem witness_Mix2ClosedForm :
    (4295025072 : Nat) = (0xFFFFFFFF : U64).toNat % 2 ^ 32 + 57777 ∧ (57776 : Nat) = 4295025072 % 2 ^ 32 ∧
    (3284970032 : Nat) = 57776 * 56857 ∧
    (75540 : Nat) = (0x0001000500004563 : U64).toNat % 2 ^ 32 + 57777 ∧ 2 ^ 32 ≤ 75540 % 2 ^ 32 * 56857 := by decide
theorem witness_PassCarryThresholds :
    (0x4563 : Nat) = (0x0001000500004563 : U64).toNat % 2 ^ 32 ∧
    ¬ carryEscaped mixConfig2.narrow mixConfig2.shift (((0x0001000500004563 : U64) &&& mixConfig2.narrow) + incConst) = true ∧
    ¬ carryEscaped mixConfig3.narrow mixConfig3.shift (((0x0001000500004563 : U64) &&& mixConfig3.narrow) + incConst) = true := by
  decide
theorem witness_SeedtRunsTheNineLines :
    defaultLinuxRow = (match (start false 0 []).plat with
      | .linux => (start false 0 []).rows.linux
      | .windows => (start false 0 []).rows.windows) ∧
    (0x46743239 : U32) = prsAdvance defaultLinuxRow 1000000000 ∧ (0x46743239 : U32) = prsOutput defaultLinuxRow 0x46743239 := by
  refine ⟨rfl, ?_, ?_⟩ <;> decide
theorem witness_SeedtClosedForm :
    (0x46743239 : Nat) = ((1000000000 : U32).toNat * defaultLinuxRow.mult.toNat + defaultLinuxRow.inc.toNat) %
      (defaultLinuxRow.modPred.toNat + 1) ∧
    (0x3239 : Nat) = ((0x46743239 >>> defaultLinuxRow.shift.val) &&& defaultLinuxRow.mask.toNat) % 2 ^ 16 := by decide
theorem witness_SeedtReadsLanes0And2Only :
    (start true 0x0001AAAABBBBCCCC []).plat = (start true 0x0009AAAA0000CCCC []).plat ∧
    lane (start true 0x0001AAAABBBBCCCC []).rr 0 = lane (start true 0x0009AAAA0000CCCC []).rr 0 ∧
    lane (start true 0x0001AAAABBBBCCCC []).rr 2 = lane (start true 0x0009AAAA0000CCCC []).rr 2 ∧
    ∃ s', exec (.seedt 1) (start true 0x0001AAAABBBBCCCC []) = .next s' := by
  refine ⟨rfl, ?_, ?_, _, rfl⟩ <;> decide
theorem witness_SeedxSetsTheStateAndReturnsIt :
    (0x0001FFFFFFFFFFFF : U64) = ((0xFFFFFFFFFFFFFFFF &&& 0x0000FFFFFFFFFFFF) ||| 0x0001000000000000) ∧
    ∃ s', exec (.seedx 0xFFFFFFFFFFFFFFFF) (start false 0 []) = .next s' := ⟨by decide, _, rfl⟩
theorem witness_SeedxConsequences :
    (0xFFFF000000000000 : U64).toNat % 2 ^ 48 = (0 : U64).toNat % 2 ^ 48 ∧ lane 0x0001000000000007 3 = 1 ∧
    ∃ s' s'', exec (.seedx 3) (start false 0 []) = .next s' ∧ exec (.seedx 3) s' = .next s'' :=
  ⟨by decide, by decide, _, _, rfl, rfl⟩
theorem witness_SmallDrawIsOneMix2AndLane1 : beNat [0xFF, 0xFF] ≤ 0xFFFF ∧ beNat [] ≤ 0xFFFF := by decide
theorem witness_WideDrawConcatenatesMix3Words :
    0x10000 ≤ beNat [0x01, 0x00, 0x00] ∧ 3 = byteLen 0x10000 ∧ 1 = (3 + 3) / 4 := by decide
theorem witness_WidthCorrectionClearsSixteenBits :
    (0xA9E01F0F0000C3CD : Nat) < 2 ^ (32 * ((5 + 3) / 4)) ∧ 5 % 4 = 1 ∧ (0x0000C3CD : Nat) < 2 ^ (32 * ((3 + 3) / 4)) ∧ 3 % 4 = 3 ∧
    (0 : Nat) < 2 ^ (32 * ((4 + 3) / 4)) ∧ 4 % 4 = 0 ∧ (0 : Nat) < 2 ^ (32 * ((10 + 3) / 4)) ∧ 10 % 4 = 2 := by decide
theorem witness_DrawResultIsInRange : 0 < beNat [0x01] ∧ beNat [0x00] = 0 := by decide
theorem witness_DrawDependsOnLow48AndLengthClass :
    (start false 0 []).rr.toNat % 2 ^ 48 = (start true 0x0001000000000000 []).rr.toNat % 2 ^ 48 ∧
    byteLen (beNat [0x03]) = byteLen (beNat [0x00, 0x09]) ∧ beNat [0x03] = beNat [0x00, 0x03] ∧
    (∃ s', exec (.draw [0x03]) (start false 0 []) = .next s') ∧
    ∃ s', exec (.draw [0x00, 0x09]) (start true 0x0001000000000000 []) = .next s' :=
  ⟨by decide, by decide, by decide, ⟨_, rfl⟩, _, rfl⟩
theorem witness_StepKeepsGuardOrReset : GuardOrReset State.reset ∧ ∃ s', step State.reset = .next s' := ⟨.inr rfl, _, rfl⟩
theorem witness_MutatingCommandsEstablishTheGuard :
    GuardHeld (start false 0x0001000000000000 [0x03]) ∧ ∃ s', step (start false 0x0001000000000000 [0x03]) = .next s' := by
  refine ⟨?_, _, rfl⟩; unfold GuardHeld; decide
theorem witness_PlatAndRowsNeverChange : ∃ s', runSteps 2 (start true 0 [0x03, 0x03]) = .next s' := ⟨_, rfl⟩
theorem witness_OnlySeedtUsesThePlatformSource :
    (∀ t, Instr.rdst ≠ .seedt t) ∧ ∃ s', exec .rdst (start false 0 []) = .next s' := ⟨(fun _ h => by cases h), _, rfl⟩

end Sys2Proof.Tests
end

