-- ==== Sys2Proof/Proofs/Scope.lean ====
section
/-! PROOFS. The lengths of a natural (00_scope.md R8): each is large enough for the number, and least. -/

namespace Sys2Proof.Proofs

open Sys2Proof.Machine Sys2Proof.Laws

/-- `m` fits its own bit length (R8). -/
theorem lt_two_pow_bitLen (m : Nat) : m < 2 ^ bitLen m :=
  (bitLen_le_iff m (bitLen m)).mp le_rfl

/-- `m` fits its own byte length (R8). -/
theorem lt_two_pow_byteLen (m : Nat) : m < 2 ^ (8 * byteLen m) :=
  (byteLen_le_iff m (byteLen m)).mp le_rfl

/-- Settles O8: a length is at most `k` exactly when `k` bits (or bytes) hold the number, so it is itself such a `k` and the least. -/
theorem byteLenIsLeast : Obligations.ByteLenIsLeast := by
  refine ⟨rfl, fun m => ⟨lt_two_pow_bitLen m, ?leastBits, lt_two_pow_byteLen m, ?leastBytes⟩⟩
  case leastBits => exact fun k => (bitLen_le_iff m k).mpr
  case leastBytes => exact fun k => (byteLen_le_iff m k).mpr

end Sys2Proof.Proofs
end

/-! PROOFS. The state of the block (10_state.md): the guard in lane 3 of `RR` (R12), the configuration that no operation writes
(R14, R17), and the values after reset (R19). -/

namespace Sys2Proof.Proofs

open Sys2Proof.Machine Sys2Proof.Laws Sys2Proof.Safety

/-! ### The guard on words: what ends in a mixing step has it -/

/-- A mixing step ends with the guard, whatever the word before it (R62). -/
@[simp] theorem lane_mix_guard (c : MixConfig) (rr : U64) : lane (mix c rr) 3 = 1 :=
  lane_setLane_same _ 3 1

/-- The small draw runs MIX2, also where the modulus is 0 (R81). -/
theorem drawSmall_guard (m : Nat) (rr : U64) : lane (drawSmall m rr).2 3 = 1 :=
  lane_mix_guard mixConfig2 rr

/-- The word a wide draw leaves is that of its passes of MIX3 (R82). -/
theorem drawWide_rr (m len : Nat) (rr : U64) : (drawWide m len rr).2 = mix3^[((len + 1) / 2 + 1) / 2] rr := by
  have hloop := drawWideLoop_eq ((len + 1) / 2) (((len + 1) / 2 + 1) / 2) ((len + 1) / 2) 0 0 rr (by omega) (by omega) (by simp)
  exact congrArg Prod.snd hloop

/-- A wide draw of a nonzero length makes at least one pass, and its last pass leaves the guard (R82). -/
theorem drawWide_guard (m : Nat) {len : Nat} (rr : U64) (hlen : 0 < len) : lane (drawWide m len rr).2 3 = 1 := by
  obtain ⟨n, hn⟩ : ∃ n, ((len + 1) / 2 + 1) / 2 = n + 1 := ⟨((len + 1) / 2 + 1) / 2 - 1, by omega⟩
  rw [drawWide_rr, hn, Function.iterate_succ_apply']
  exact lane_mix_guard mixConfig3 _

/-- The draw leaves the guard in both of its arms (R80). -/
theorem drawValue_guard (m : Nat) (rr : U64) : lane (drawValue m rr).2 3 = 1 := by
  by_cases hlen : byteLen m ≤ 2
  · rw [drawValue, if_pos hlen]
    exact drawSmall_guard m rr
  · rw [drawValue, if_neg hlen]
    exact drawWide_guard m rr (by omega)

/-! ### The guard across commands and steps -/

/-- SEEDT and SEEDX force lane 3, and a draw ends in a mixing step (R71, R73, R80). -/
theorem exec_guardHeld {i : Instr} {s s' : State} (h : exec i s = .next s') (hi : i ≠ .rdst) : GuardHeld s' := by
  unfold GuardHeld
  cases i with
  | seedt t =>
    obtain ⟨hrr, -⟩ := execSeedt_next h
    rw [hrr, lane_setLane_same]
  | seedx x =>
    obtain ⟨hrr, -⟩ := execSeedx_next h
    rw [hrr, lane_setLane_same]
  | rdst => exact absurd rfl hi
  | draw f =>
    obtain ⟨hrr, -⟩ := execDraw_next h
    rw [hrr]
    exact drawValue_guard _ _

/-- RDST writes nothing (R84). -/
theorem exec_rdst_rr {s s' : State} (h : exec .rdst s = .next s') : s'.rr = s.rr := by
  rw [execRdst_next h, respond_rr]

/-- All a step can do to `RR`: a mutating command leaves the guard; RDST, a reserved byte and a wait leave `RR` alone. -/
theorem step_guardHeld_or_rr_eq {s s' : State} (h : step s = .next s') : GuardHeld s' ∨ s'.rr = s.rr := by
  obtain ⟨i, rest, -, hs⟩ | ⟨op, rest, -, hs⟩ | ⟨-, hs⟩ := step_cases s <;> rw [hs] at h
  case inl =>
    by_cases hi : i = .rdst
    · subst hi
      exact .inr ((exec_rdst_rr h).trans (consumeTo_rr rest s))
    · exact .inl (exec_guardHeld h hi)
  case inr.inl =>
    cases h
    exact .inr rfl
  case inr.inr =>
    cases h
    exact .inr rfl

/-- The guard is kept where `RR` is. -/
theorem guardHeld_of_rr_eq {s s' : State} (hrr : s'.rr = s.rr) (hs : GuardHeld s) : GuardHeld s' := by
  rwa [GuardHeld, hrr]

/-- Settles O44: a step leaves the guard or keeps `RR`, and where it keeps `RR` either case of the invariant carries over. -/
theorem stepKeepsGuardOrReset : Obligations.StepKeepsGuardOrReset := by
  intro s s' hinv hstep
  obtain hguard | hrr := step_guardHeld_or_rr_eq hstep
  · exact .inl hguard
  · exact hinv.imp (guardHeld_of_rr_eq hrr) hrr.trans

/-- Settles O46: the mutating commands leave the guard by their last write of `RR`; a step that leaves `RR` alone keeps it. -/
theorem mutatingCommandsEstablishTheGuard : Obligations.MutatingCommandsEstablishTheGuard := by
  refine ⟨fun i s s' h => ⟨exec_guardHeld h, ?rdst⟩, fun s s' hguard hstep => ?step⟩
  case rdst =>
    rintro rfl
    exact exec_rdst_rr h
  case step => exact (step_guardHeld_or_rr_eq hstep).elim id (guardHeld_of_rr_eq · hguard)

/-! ### The configuration across commands, steps and runs -/

/-- `u` has the `PLAT` and the rows of `s`: what is fixed at reset (R14, R17). -/
def SameConfig (s u : State) : Prop :=
  u.plat = s.plat ∧ u.rows = s.rows

theorem SameConfig.trans {s u v : State} (h : SameConfig s u) (h' : SameConfig u v) : SameConfig s v :=
  ⟨h'.1.trans h.1, h'.2.trans h.2⟩

/-- No command writes `PLAT` or the rows (R14). -/
theorem exec_sameConfig {i : Instr} {s s' : State} (h : exec i s = .next s') : SameConfig s s' := by
  cases i with
  | seedt t =>
    obtain ⟨-, -, hplat, hrows, -, -⟩ := execSeedt_next h
    exact ⟨hplat, hrows⟩
  | seedx x =>
    obtain ⟨-, -, hplat, hrows, -, -⟩ := execSeedx_next h
    exact ⟨hplat, hrows⟩
  | rdst =>
    rw [execRdst_next h]
    exact ⟨respond_plat _ s, respond_rows _ s⟩
  | draw f =>
    obtain ⟨-, -, hplat, hrows, -, -⟩ := execDraw_next h
    exact ⟨hplat, hrows⟩

/-- No step does, and consuming bytes does not either (R17). -/
theorem step_sameConfig {s s' : State} (h : step s = .next s') : SameConfig s s' := by
  obtain ⟨i, rest, -, hs⟩ | ⟨op, rest, -, hs⟩ | ⟨-, hs⟩ := step_cases s <;> rw [hs] at h
  case inl =>
    exact exec_sameConfig (s := consumeTo rest s) h
  case inr.inl =>
    cases h
    exact ⟨rfl, rfl⟩
  case inr.inr =>
    cases h
    exact ⟨rfl, rfl⟩

/-- A run of `k + 1` steps that answers a state has a first step that answers one, and runs on from there. -/
theorem runSteps_succ_next {k : Nat} {s s' : State} (h : runSteps (k + 1) s = .next s') :
    ∃ u, step s = .next u ∧ runSteps k u = .next s' := by
  cases hstep : step s with
  | next u => exact ⟨u, rfl, by rwa [runSteps_succ hstep] at h⟩
  | fault r => cases r
  | refused r =>
    have hcore : core.step s = .refused r := hstep
    simp [runSteps, Host.Core.run, hcore] at h

/-- What every step keeps, every run keeps. -/
theorem runSteps_preserves {P : State → Prop} (hP : ∀ u v, P u → step u = .next v → P v) (k : Nat) {s s' : State} (hs : P s)
    (h : runSteps k s = .next s') : P s' := by
  induction k generalizing s with
  | zero =>
    cases h
    exact hs
  | succ k ih =>
    obtain ⟨u, hstep, hrun⟩ := runSteps_succ_next h
    exact ih (hP s u hs hstep) hrun

/-- Settles O47: having the configuration of the first state is kept by every step, so by every run. -/
theorem platAndRowsNeverChange : Obligations.PlatAndRowsNeverChange := by
  intro k s s' hrun
  have hkept : ∀ u v, SameConfig s u → step u = .next v → SameConfig s v :=
    fun _ _ hu hstep => hu.trans (step_sameConfig hstep)
  exact runSteps_preserves hkept k ⟨rfl, rfl⟩ hrun

/-! ### Reset -/

@[simp] theorem lane_zero (n : Fin 4) : lane 0 n = 0 := by
  simp [lane]

/-- Settles O19: the fields after reset, and the strap's encoding in its two cases (R19, R110). -/
theorem resetLeavesTheStatedValues : Obligations.ResetLeavesTheStatedValues := by
  intro strap ps s
  refine ⟨hostReset_rr strap ps s, fun n => ?lanes, ?plat, hostReset_ps strap ps s, hostReset_cmd strap ps s,
    hostReset_rsp strap ps s⟩
  case lanes => rw [hostReset_rr, lane_zero]
  case plat => cases strap <;> rfl

/-- Settles O45: `RR` is 0 after reset, so the second case of the invariant holds and every lane is 0. -/
theorem resetMeetsGuardOrReset : Obligations.ResetMeetsGuardOrReset := by
  have hreset (rows : PrsRows) (strap : Bool) (ps : U32) : GuardOrReset (State.resetWith rows strap ps) :=
    .inr (resetWith_rr rows strap ps)
  exact ⟨fun rows strap ps => ⟨hreset rows strap ps, lane_zero 3⟩, hreset defaultRows false 0⟩

end Sys2Proof.Proofs

/-! PROOFS. The streams of the host interface (20_memory.md): commands run in the order of their first bytes (R26), each on the
state the one before it left, and the repeat of a command need not be the same again (R24). -/

namespace Sys2Proof.Proofs

open Sys2Proof.Machine Sys2Proof.Laws Sys2Proof.Safety

/-! ### The decoder on the bytes of a command -/

/-- Format T takes four bytes, whatever follows them (R33). -/
theorem decodeT_append {f : List Byte} (rest : List Byte) (hf : f.length = 4) :
    decodeT (f ++ rest) = .command (.seedt (BitVec.ofNat 32 (beNat f))) rest := by
  rw [decodeT, takeField_append f rest hf]

/-- Format X takes eight bytes, whatever follows them (R34). -/
theorem decodeX_append {f : List Byte} (rest : List Byte) (hf : f.length = 8) :
    decodeX (f ++ rest) = .command (.seedx (BitVec.ofNat 64 (beNat f))) rest := by
  rw [decodeX, takeField_append f rest hf]

/-- Format V takes two length bytes and as many bytes as they say, whatever follows them (R35). -/
theorem decodeV_append {len f : List Byte} (rest : List Byte) (hlen : len.length = 2) (hf : f.length = beNat len) :
    decodeV (len ++ (f ++ rest)) = .command (.draw f) rest := by
  rw [decodeV, takeField_append len _ hlen]
  dsimp only
  rw [takeField_append f rest hf]

/-- A word of `n` bytes is read back from its big-endian bytes (R22, R36). -/
theorem ofNat_beNat_beBytes (n : Nat) (v : BitVec (8 * n)) : BitVec.ofNat (8 * n) (beNat (beBytes n v.toNat)) = v := by
  have hlt : v.toNat < 256 ^ n := by
    rw [← pow_two_eight]
    exact v.isLt
  rw [beNat_beBytes, Nat.mod_eq_of_lt hlt, BitVec.ofNat_toNat, BitVec.setWidth_eq]

/-- The bytes of a well-formed command decode to the command, and what follows them is left (R30, R42). -/
theorem decode_encode_append {i : Instr} (rest : List Byte) (hi : i.wf = true) :
    decode (encode i ++ rest) = .command i rest := by
  cases i with
  | seedt t =>
    have ht : BitVec.ofNat 32 (beNat (beBytes 4 t.toNat)) = t := ofNat_beNat_beBytes 4 t
    have hdecode := decodeT_append rest (beBytes_length 4 t.toNat)
    rwa [ht] at hdecode
  | seedx x =>
    have hx : BitVec.ofNat 64 (beNat (beBytes 8 x.toNat)) = x := ofNat_beNat_beBytes 8 x
    have hdecode := decodeX_append rest (beBytes_length 8 x.toNat)
    rwa [hx] at hdecode
  | rdst => rfl
  | draw f =>
    have hfit : f.length ≤ 65535 := (draw_wf_iff f).mp hi
    have hlen : f.length = beNat (beBytes 2 f.length) := by
      rw [beNat_beBytes]
      omega
    have hdecode := decodeV_append rest (beBytes_length 2 f.length) hlen
    rwa [← List.append_assoc] at hdecode

/-! ### What a command answers -/

/-- Every command on every state answers a next state (R101). -/
theorem exec_total (i : Instr) (s : State) : ∃ s', exec i s = .next s' := by
  cases i <;> exact ⟨_, rfl⟩

/-- The output word one SEEDT with timestamp `t` takes, twice, from the platform source: its low 16 bits (R71). -/
def seedtOutput (t : U32) (s : State) : U16 :=
  (prsOutput (prsRow s.rows s.plat) (prsAdvance (prsRow s.rows s.plat) t)).setWidth 16

/-- What SEEDT makes of `RR` with the output word `w`: lane 1 written and MIX3, lane 0 written and MIX3, the guard (R71). -/
def seedtWord (w : U16) (rr : U64) : U64 :=
  setLane (mix3 (setLane (mix3 (setLane rr 1 w)) 0 w)) 3 1

/-- The `RR` that SEEDT leaves: both phases take the same output word, since both seed with `t` (R71). -/
theorem exec_seedt_rr {t : U32} {s s' : State} (h : exec (.seedt t) s = .next s') : s'.rr = seedtWord (seedtOutput t s) s.rr := by
  obtain ⟨hrr, -⟩ := execSeedt_next h
  rw [hrr, seedtPhase_fields, seedtPhase_fields]
  rfl

/-- SEEDT on every state, as one equation (R71). -/
theorem exec_seedt (t : U32) (s : State) :
    exec (.seedt t) s = .next
      { s with
        rr := seedtWord (seedtOutput t s) s.rr
        ps := prsAdvance (prsRow s.rows s.plat) t
        rsp := s.rsp ++ [statusOk] } := by
  obtain ⟨s', h⟩ := exec_total (.seedt t) s
  have hrr := exec_seedt_rr h
  obtain ⟨-, hps, hplat, hrows, hcmd, hrsp⟩ := execSeedt_next h
  rw [h, ← hrr, ← hps, ← hplat, ← hrows, ← hcmd, ← hrsp]

/-! ### A command does not look at the command stream -/

/-- The command stream a command runs on is passed through, and nothing else depends on it (R24). -/
theorem exec_consumeTo {i : Instr} {s s' : State} (h : exec i s = .next s') (bs : List Byte) :
    exec i (consumeTo bs s) = .next (consumeTo bs s') := by
  cases i with
  | seedt t =>
    rw [exec_seedt] at h ⊢
    cases h
    rfl
  | seedx | rdst | draw =>
    cases h
    rfl

/-- A step on the bytes of a well-formed command runs it on the state past them (R30). -/
theorem step_encode_append {i : Instr} (rest : List Byte) (s : State) (hi : i.wf = true) :
    step (consumeTo (encode i ++ rest) s) = exec i (consumeTo rest s) := by
  rw [step, fetchCommand, consumeTo_cmd, decode_encode_append rest hi]
  rfl

/-! ### Commands in stream order -/

/-- Executing a sequence: where the first command answers a state, the others run on from there (R26). -/
theorem execAll_cons {i : Instr} {s s' : State} (is : List Instr) (h : exec i s = .next s') :
    execAll (i :: is) s = execAll is s' := by
  rw [execAll, h]

/-- `is.length` steps over the bytes of `is`, from any state with these bytes in its command stream. -/
theorem runSteps_encoded (is : List Instr) (tail : List Byte) (s : State) (his : ∀ i ∈ is, i.wf = true) :
    runSteps is.length (consumeTo (is.flatMap encode ++ tail) s) = execAll is (consumeTo tail s) := by
  induction is generalizing s with
  | nil => rfl
  | cons i is ih =>
    obtain ⟨hi, his⟩ := List.forall_mem_cons.mp his
    obtain ⟨s', hexec⟩ := exec_total i s
    have hstep : step (consumeTo (encode i ++ (is.flatMap encode ++ tail)) s) =
        .next (consumeTo (is.flatMap encode ++ tail) s') := by
      rw [step_encode_append _ s hi, exec_consumeTo hexec]
    calc runSteps (is.length + 1) (consumeTo ((i :: is).flatMap encode ++ tail) s)
        = runSteps is.length (consumeTo (is.flatMap encode ++ tail) s') := by
          rw [List.flatMap_cons, List.append_assoc, runSteps_succ hstep]
      _ = execAll is (consumeTo tail s') := ih s' his
      _ = execAll (i :: is) (consumeTo tail s) := (execAll_cons is (exec_consumeTo hexec tail)).symm

/-- Settles O14: by induction on the commands, since each step consumes the bytes of one command and executes it, and what a command
does is independent of the bytes behind it. -/
theorem commandsRunInStreamOrder : Obligations.CommandsRunInStreamOrder := by
  intro is tail s his hcmd
  have hs : s = consumeTo (is.flatMap encode ++ tail) s := by
    rw [← hcmd]
    rfl
  calc runSteps is.length s
      = runSteps is.length (consumeTo (is.flatMap encode ++ tail) s) := congrArg _ hs
    _ = execAll is (consumeTo tail s) := runSteps_encoded is tail s his

/-! ### A command repeated -/

/-- The output word of a timestamp is read from `PLAT` and the rows only, so no command changes it (R14, R72 (c)). -/
theorem seedtOutput_after_exec {i : Instr} {s s' : State} (t : U32) (h : exec i s = .next s') :
    seedtOutput t s' = seedtOutput t s := by
  obtain ⟨hplat, hrows⟩ := exec_sameConfig h
  rw [seedtOutput, hplat, hrows, seedtOutput]

/-- Settles O33: SEEDT 1000000000 from reset, and again. The output word is 0x3239 both times, but the second meets the lane 2 the
first left, so it ends on another word (R72 (c); vector V59a of 95_test_vectors.md). -/
theorem seedtIsNotIdempotent : Obligations.SeedtIsNotIdempotent := by
  obtain ⟨s', hfirst⟩ := exec_total (.seedt 1000000000) State.reset
  obtain ⟨s'', hsecond⟩ := exec_total (.seedt 1000000000) s'
  have hout : seedtOutput 1000000000 State.reset = 0x3239 := by decide
  have hrr' : s'.rr = 0x0001D15DED8DDDDA := by
    rw [exec_seedt_rr hfirst, hout]
    decide
  have hrr'' : s''.rr = 0x00010866A75EDDDA := by
    rw [exec_seedt_rr hsecond, seedtOutput_after_exec _ hfirst, hout, hrr']
    decide
  refine ⟨1000000000, State.reset, s', s'', rfl, hfirst, hsecond, ?differ⟩
  rw [hrr', hrr'']
  decide

end Sys2Proof.Proofs

/-! PROOFS. The encoding (30_encoding.md): what the decoder answers on every byte string and how a byte string splits (R30, R36, R40,
R42, R45), the opcode table's words, the listings (R43, R44), leading zeros of a modulus field (R37), and the response's length (R39). -/

namespace Sys2Proof.Proofs

open Sys2Proof.Machine Sys2Proof.Laws Sys2Proof.Safety

/-! ### Operand fields -/

/-- A field of `n` bytes is its operand's value, with nothing cut off (R36). -/
theorem toNat_ofNat_beNat {n : Nat} {f : List Byte} (hf : f.length = n) : (BitVec.ofNat (8 * n) (beNat f)).toNat = beNat f := by
  subst hf
  rw [BitVec.toNat_ofNat, pow_two_eight, Nat.mod_eq_of_lt (beNat_lt f)]

/-- A field of `n` bytes is what its operand is encoded to. -/
theorem beBytes_ofNat_beNat {n : Nat} {f : List Byte} (hf : f.length = n) :
    beBytes n (BitVec.ofNat (8 * n) (beNat f)).toNat = f := by
  rw [toNat_ofNat_beNat hf, ← hf, beBytes_beNat]

/-- The value of a field as a weighted sum of its bytes (R36). -/
theorem beNat_eq_sum (f : List Byte) :
    beNat f = ∑ k ∈ Finset.range f.length, (f.getD k 0).toNat * 2 ^ (8 * (f.length - 1 - k)) := by
  induction f with
  | nil => rfl
  | cons b f ih =>
    rw [beNat_cons, ih, List.length_cons, Finset.sum_range_succ', Nat.add_comm]
    simp [pow_two_eight, Nat.sub_sub, Nat.add_comm 1]

/-- Zero bytes in front of a field do not change its value (R37). -/
theorem beNat_replicate_zero_append (k : Nat) (f : List Byte) : beNat (List.replicate k 0 ++ f) = beNat f := by
  induction k with
  | zero => rfl
  | succ k ih =>
    rw [List.replicate_succ, List.cons_append, beNat_cons, ih]
    simp

/-- A number that fits `n` bytes has zero bytes in front of those in any longer field. -/
theorem beBytes_add_of_lt {n v : Nat} (k : Nat) (hv : v < 256 ^ n) : beBytes (k + n) v = List.replicate k 0 ++ beBytes n v := by
  have hvalue : beNat (List.replicate k 0 ++ beBytes n v) = v := by
    rw [beNat_replicate_zero_append, beNat_beBytes, Nat.mod_eq_of_lt hv]
  have hfield := beBytes_beNat (List.replicate k 0 ++ beBytes n v)
  rwa [hvalue, List.length_append, List.length_replicate, beBytes_length] at hfield

/-! ### The bytes of a command, from its fields -/

theorem encode_seedt_field {f : List Byte} (hf : f.length = 4) : encode (.seedt (BitVec.ofNat 32 (beNat f))) = opSeedt :: f :=
  congrArg (opSeedt :: ·) (beBytes_ofNat_beNat hf)

theorem encode_seedx_field {f : List Byte} (hf : f.length = 8) : encode (.seedx (BitVec.ofNat 64 (beNat f))) = opSeedx :: f :=
  congrArg (opSeedx :: ·) (beBytes_ofNat_beNat hf)

theorem encode_draw_field {len f : List Byte} (hlen : len.length = 2) (hf : f.length = beNat len) :
    encode (.draw f) = opDraw :: (len ++ f) := by
  rw [encode, hf, ← hlen, beBytes_beNat]

/-- The two length bytes cannot say more than 65535 (R35). -/
theorem draw_field_wf {len f : List Byte} (hlen : len.length = 2) (hf : f.length = beNat len) : (Instr.draw f).wf = true := by
  have hlt := beNat_lt len
  rw [hlen] at hlt
  rw [draw_wf_iff]
  omega

/-- Every command has its opcode byte (R30). -/
theorem encode_length_pos (i : Instr) : 0 < (encode i).length := by
  cases i <;> exact Nat.succ_pos _

/-- Too short a field can be completed. -/
theorem exists_completion {n : Nat} {bs : List Byte} (h : bs.length < n) :
    ∃ missing : List Byte, missing ≠ [] ∧ (bs ++ missing).length = n := by
  refine ⟨List.replicate (n - bs.length) 0, ?nonempty, ?length⟩
  case nonempty => simpa [Nat.sub_eq_zero_iff_le] using h
  case length =>
    rw [List.length_append, List.length_replicate]
    omega

/-! ### What the decoder answers -/

/-- What each answer of the decoder says of the byte string: a command's bytes in front, a reserved byte in front, or a proper initial
part of a command's bytes (R40, R42, R45). -/
def Spells (bs : List Byte) : Fetch → Prop
  | .command i rest => i.wf = true ∧ bs = encode i ++ rest
  | .illegal op rest => Reserved op ∧ bs = op :: rest
  | .incomplete => ∃ (i : Instr) (missing : List Byte), i.wf = true ∧ missing ≠ [] ∧ encode i = bs ++ missing

/-- The reserved opcode bytes are those of no command (R31, R40). -/
theorem reserved_iff (op : Byte) : Reserved op ↔ op ≠ opSeedt ∧ op ≠ opSeedx ∧ op ≠ opRdst ∧ op ≠ opDraw := by
  simp only [Reserved, opSeedt, opSeedx, opRdst, opDraw, ne_eq, ← BitVec.toNat_inj, BitVec.ofNat_eq_ofNat,
    BitVec.toNat_ofNat]
  omega

theorem decodeT_spells (bs : List Byte) : Spells (opSeedt :: bs) (decodeT bs) := by
  obtain ⟨hshort, hd⟩ | ⟨f, rest, hf, rfl, hd⟩ := decodeT_cases bs <;> rw [hd]
  case inl =>
    obtain ⟨missing, hne, hf⟩ := exists_completion hshort
    exact ⟨_, missing, rfl, hne, encode_seedt_field hf⟩
  case inr => exact ⟨rfl, by rw [encode_seedt_field hf, List.cons_append]⟩

theorem decodeX_spells (bs : List Byte) : Spells (opSeedx :: bs) (decodeX bs) := by
  obtain ⟨hshort, hd⟩ | ⟨f, rest, hf, rfl, hd⟩ := decodeX_cases bs <;> rw [hd]
  case inl =>
    obtain ⟨missing, hne, hf⟩ := exists_completion hshort
    exact ⟨_, missing, rfl, hne, encode_seedx_field hf⟩
  case inr => exact ⟨rfl, by rw [encode_seedx_field hf, List.cons_append]⟩

/-- Format V can end inside its length or inside its modulus field. -/
theorem decodeV_spells (bs : List Byte) : Spells (opDraw :: bs) (decodeV bs) := by
  obtain ⟨hshort, hd⟩ | ⟨len, bs', hlen, rfl, hshort, hd⟩ | ⟨len, f, rest, hlen, hf, rfl, hd⟩ := decodeV_cases bs <;> rw [hd]
  case inl =>
    obtain ⟨missing, hne, hlen⟩ := exists_completion hshort
    have hf : (List.replicate (beNat (bs ++ missing)) (0 : Byte)).length = beNat (bs ++ missing) := List.length_replicate
    refine ⟨_, missing ++ List.replicate (beNat (bs ++ missing)) 0, draw_field_wf hlen hf, List.append_ne_nil_of_left_ne_nil hne _, ?_⟩
    rw [encode_draw_field hlen hf, List.append_assoc, List.cons_append]
  case inr.inl =>
    obtain ⟨missing, hne, hf⟩ := exists_completion hshort
    refine ⟨_, missing, draw_field_wf hlen hf, hne, ?_⟩
    rw [encode_draw_field hlen hf, List.cons_append, List.append_assoc]
  case inr.inr =>
    refine ⟨draw_field_wf hlen hf, ?_⟩
    rw [encode_draw_field hlen hf, List.cons_append, List.append_assoc]

/-- The decoder's answer is right on every byte string. -/
theorem decode_spells (bs : List Byte) : Spells bs (decode bs) := by
  cases bs with
  | nil => exact ⟨.rdst, [opRdst], rfl, List.cons_ne_nil _ _, rfl⟩
  | cons op bs =>
    obtain ⟨rfl, hd⟩ | ⟨rfl, hd⟩ | ⟨rfl, hd⟩ | ⟨rfl, hd⟩ | ⟨hop, hd⟩ := decode_cases op bs <;> rw [hd]
    · exact decodeT_spells bs
    · exact decodeX_spells bs
    · exact ⟨rfl, rfl⟩
    · exact decodeV_spells bs
    · exact ⟨(reserved_iff op).mpr hop, rfl⟩

/-- A reserved opcode byte is rejected by itself, whatever follows it (R40). -/
theorem decode_reserved {op : Byte} (rest : List Byte) (hop : Reserved op) : decode (op :: rest) = .illegal op rest := by
  obtain ⟨hseedt, hseedx, hrdst, hdraw⟩ := (reserved_iff op).mp hop
  rw [decode, if_neg hseedt, if_neg hseedx, if_neg hrdst, if_neg hdraw]

/-- A proper initial part of a command has no other command and no reserved byte in front: the decoder would find the same in the whole
command's bytes. -/
theorem decode_initial_part {i : Instr} {bs missing : List Byte} (hi : i.wf = true) (hne : missing ≠ [])
    (henc : encode i = bs ++ missing) : decode bs = .incomplete := by
  have hwhole : decode (bs ++ missing) = .command i [] := by
    rw [← henc, ← List.append_nil (encode i), decode_encode_append [] hi]
  have hspells := decode_spells bs
  cases hd : decode bs with
  | incomplete => rfl
  | command j rest =>
    rw [hd] at hspells
    obtain ⟨hj, rfl⟩ := hspells
    rw [List.append_assoc, decode_encode_append _ hj, Fetch.command.injEq] at hwhole
    exact absurd (List.append_eq_nil_iff.mp hwhole.2).2 hne
  | illegal op rest =>
    rw [hd] at hspells
    obtain ⟨hop, rfl⟩ := hspells
    rw [List.cons_append, decode_reserved _ hop] at hwhole
    cases hwhole

/-- The decoder, characterised: it answers exactly what the byte string spells. -/
theorem decode_eq_iff (bs : List Byte) (r : Fetch) : decode bs = r ↔ Spells bs r := by
  constructor
  · rintro rfl
    exact decode_spells bs
  · intro h
    cases r with
    | command i rest =>
      obtain ⟨hi, rfl⟩ := h
      exact decode_encode_append rest hi
    | illegal op rest =>
      obtain ⟨hop, rfl⟩ := h
      exact decode_reserved rest hop
    | incomplete =>
      obtain ⟨i, missing, hi, hne, henc⟩ := h
      exact decode_initial_part hi hne henc

/-- Settles O2: the operand of each format is read back from its big-endian bytes, and the length bytes of a draw say where its field
ends. -/
theorem decodeOfEncodeIsTheCommand : Obligations.DecodeOfEncodeIsTheCommand :=
  fun _ rest hi => decode_encode_append rest hi

/-- Settles O3: the command clause of the decoder's characterisation. -/
theorem decodedBytesAreTheEncoding : Obligations.DecodedBytesAreTheEncoding :=
  fun bs i rest => (decode_eq_iff bs (.command i rest)).mp

/-- Settles O5: the incomplete clause of the decoder's characterisation. -/
theorem incompleteIsAProperInitialPart : Obligations.IncompleteIsAProperInitialPart :=
  fun bs => decode_eq_iff bs .incomplete

/-- Settles O4: each format takes its field, whose value fits the operand and is the weighted sum of its bytes. -/
theorem operandsAssembleBigEndian : Obligations.OperandsAssembleBigEndian := by
  refine ⟨fun b1 b2 b3 b4 rest => ?seedt, fun b1 b2 b3 b4 b5 b6 b7 b8 rest => ?seedx, fun b1 b2 f rest hf => ?draw⟩
  case seedt =>
    refine ⟨_, decodeT_append (f := [b1, b2, b3, b4]) rest rfl, ?_⟩
    rw [toNat_ofNat_beNat (n := 4) rfl]
    simp only [beNat, List.foldl_cons, List.foldl_nil]
    omega
  case seedx =>
    refine ⟨_, decodeX_append (f := [b1, b2, b3, b4, b5, b6, b7, b8]) rest rfl, ?_⟩
    rw [toNat_ofNat_beNat (n := 8) rfl]
    simp only [beNat, List.foldl_cons, List.foldl_nil]
    omega
  case draw =>
    have hlen : f.length = beNat [b1, b2] := by
      simpa [beNat] using hf
    exact ⟨decodeV_append (len := [b1, b2]) rest rfl hlen, beNat_eq_sum f⟩

/-- Settles O1: one word per format, evaluated. -/
theorem writtenOutWordsDecode : Obligations.WrittenOutWordsDecode := by
  refine ⟨?seedt, ?seedx, ?rdst, ?draw⟩ <;> decide

/-! ### Splitting a stream into units -/

/-- The decoder's answer where a unit stands in front. -/
def unitFetch (rest : List Byte) : StreamUnit → Fetch
  | .command i => .command i rest
  | .reserved op => .illegal op rest

theorem unitFetch_ne_incomplete (rest : List Byte) (u : StreamUnit) : unitFetch rest u ≠ .incomplete := by
  cases u <;> exact Fetch.noConfusion

theorem unitFetch_inj {rest rest' : List Byte} {u v : StreamUnit} (h : unitFetch rest u = unitFetch rest' v) :
    u = v ∧ rest = rest' := by
  cases u <;> cases v <;> cases h <;> exact ⟨rfl, rfl⟩

/-- The decoder finds the unit that stands in front, and only that (R40, R42). -/
theorem decode_unit_append {u : StreamUnit} (rest : List Byte) (hu : u.Legal) : decode (u.bytes ++ rest) = unitFetch rest u := by
  cases u with
  | command i => exact decode_encode_append rest hu
  | reserved op => exact decode_reserved rest hu

theorem decode_units_cons {u : StreamUnit} (us : List StreamUnit) (tail : List Byte) (hu : u.Legal) :
    decode ((u :: us).flatMap StreamUnit.bytes ++ tail) = unitFetch (us.flatMap StreamUnit.bytes ++ tail) u := by
  rw [List.flatMap_cons, List.append_assoc, decode_unit_append _ hu]

/-- Where the decoder finds something complete, a legal unit stands in front. -/
theorem decode_incomplete_or_unit (bs : List Byte) :
    decode bs = .incomplete ∨ ∃ (u : StreamUnit) (rest : List Byte), u.Legal ∧ bs = u.bytes ++ rest := by
  have hspells := decode_spells bs
  cases hd : decode bs with
  | incomplete => exact .inl rfl
  | command i rest =>
    rw [hd] at hspells
    exact .inr ⟨.command i, rest, hspells⟩
  | illegal op rest =>
    rw [hd] at hspells
    exact .inr ⟨.reserved op, rest, hspells⟩

theorem unit_bytes_length_pos (u : StreamUnit) : 0 < u.bytes.length := by
  cases u with
  | command i => exact encode_length_pos i
  | reserved op => exact Nat.one_pos

/-- Every byte string has a splitting: take units from the front until the decoder finds nothing complete. -/
theorem exists_splitting (bs : List Byte) :
    ∃ (us : List StreamUnit) (tail : List Byte),
      (∀ u ∈ us, u.Legal) ∧ decode tail = .incomplete ∧ bs = us.flatMap StreamUnit.bytes ++ tail := by
  induction hn : bs.length using Nat.strong_induction_on generalizing bs with
  | h n ih =>
    obtain hincomplete | ⟨u, rest, hu, rfl⟩ := decode_incomplete_or_unit bs
    · exact ⟨[], bs, by simp, hincomplete, rfl⟩
    · have hshorter : rest.length < n := by
        have hpos := unit_bytes_length_pos u
        rw [List.length_append] at hn
        omega
      obtain ⟨us, tail, hus, htail, hrest⟩ := ih rest.length hshorter rest rfl
      refine ⟨u :: us, tail, List.forall_mem_cons.mpr ⟨hu, hus⟩, htail, ?_⟩
      rw [List.flatMap_cons, List.append_assoc, ← hrest]

/-- Two splittings of one byte string are the same: what the decoder answers in front of it decides the first unit of both. -/
theorem splitting_unique {us vs : List StreamUnit} {tail tail' : List Byte} (hus : ∀ u ∈ us, u.Legal) (hvs : ∀ v ∈ vs, v.Legal)
    (htail : decode tail = .incomplete) (htail' : decode tail' = .incomplete)
    (h : us.flatMap StreamUnit.bytes ++ tail = vs.flatMap StreamUnit.bytes ++ tail') : us = vs ∧ tail = tail' := by
  induction us generalizing vs with
  | nil =>
    cases vs with
    | nil => exact ⟨rfl, h⟩
    | cons v vs =>
      have hd := decode_units_cons vs tail' (List.forall_mem_cons.mp hvs).1
      rw [← h] at hd
      exact absurd (hd.symm.trans htail) (unitFetch_ne_incomplete _ v)
  | cons u us ih =>
    obtain ⟨hu, husRest⟩ := List.forall_mem_cons.mp hus
    have hd := decode_units_cons us tail hu
    cases vs with
    | nil =>
      rw [h] at hd
      exact absurd (hd.symm.trans htail') (unitFetch_ne_incomplete _ u)
    | cons v vs =>
      obtain ⟨hv, hvsRest⟩ := List.forall_mem_cons.mp hvs
      rw [h, decode_units_cons vs tail' hv] at hd
      obtain ⟨rfl, hrest⟩ := unitFetch_inj hd
      obtain ⟨rfl, rfl⟩ := ih husRest hvsRest hrest.symm
      exact ⟨rfl, rfl⟩

/-- Settles O6: a splitting exists by induction on the length, and is unique by induction on its units. -/
theorem streamsSplitInExactlyOneWay : Obligations.StreamsSplitInExactlyOneWay := by
  intro bs
  refine ⟨exists_splitting bs, fun us vs tail tail' hus hvs htail htail' h h' => ?unique⟩
  case unique => exact splitting_unique hus hvs htail htail' (h.symm.trans h')

/-! ### A step on what the stream spells -/

/-- Settles O9: fetching, consuming and executing are the command arm of a step. -/
theorem stepRunsTheDecodedCommand : Obligations.StepRunsTheDecodedCommand := by
  intro s i rest hd
  rw [step, fetchCommand, hd]
  rfl

/-- A step waits where nothing complete stands in front (R45). -/
theorem step_of_incomplete {s : State} (hd : decode s.cmd = .incomplete) : step s = .next s := by
  rw [step, fetchCommand, hd]

/-- Settles O11: the part that is there is a proper initial part of the command's bytes, and with the missing bytes it is all of them. -/
theorem waitsUntilTheMissingBytesArrive : Obligations.WaitsUntilTheMissingBytesArrive := by
  intro s i missing hi hne henc
  refine ⟨step_of_incomplete (decode_initial_part hi hne henc), ?runs⟩
  case runs =>
    have hwhole : decode (hostSend missing s).cmd = .command i [] := by
      rw [hostSend_cmd, ← henc, ← List.append_nil (encode i), decode_encode_append [] hi]
    exact stepRunsTheDecodedCommand (hostSend missing s) i [] hwhole

/-! ### Words of the opcode table -/

@[simp] theorem leBytes_length (n v : Nat) : (leBytes n v).length = n := by
  induction n generalizing v with
  | zero => rfl
  | succ n ih => rw [leBytes, List.length_cons, ih]

/-- Byte `k` of a word's bytes is bits `8 * k + 7` to `8 * k` of the word (log 15). -/
theorem leBytes_getD {n k : Nat} (v : Nat) (hk : k < n) : (leBytes n v).getD k 0 = BitVec.ofNat 8 (v >>> (8 * k)) := by
  induction n generalizing k v with
  | zero => exact absurd hk (Nat.not_lt_zero k)
  | succ n ih =>
    cases k with
    | zero => rfl
    | succ k =>
      rw [leBytes, List.getD_cons_succ, ih _ (Nat.lt_of_succ_lt_succ hk), ← Nat.shiftRight_add, Nat.mul_succ, Nat.add_comm 8]

/-- The length of a command's bytes is the one R42 finds from its first bytes. -/
theorem encode_length {i : Instr} (hi : i.wf = true) :
    (encode i).length = commandLength ((encode i).getD 0 0) ((encode i).getD 1 0) ((encode i).getD 2 0) := by
  cases i with
  | seedt t => exact CommandLength.seedt t hi
  | seedx x => exact CommandLength.seedx x hi
  | rdst => exact CommandLength.rdst hi
  | draw f => exact CommandLength.draw f hi

theorem commandLength_draw (b1 b2 : Byte) : commandLength opDraw b1 b2 = 3 + beNat [b1, b2] := rfl

/-- Only the length of a draw depends on the bytes behind the opcode byte (R42). -/
theorem commandLength_congr {op b1 b2 c1 c2 : Byte} (h : op = opDraw → b1 = c1 ∧ b2 = c2) :
    commandLength op b1 b2 = commandLength op c1 c2 := by
  by_cases hop : op = opDraw
  · obtain ⟨rfl, rfl⟩ := h hop
    rfl
  · simp only [commandLength, if_neg hop]

/-- A command at the front of a table word's bytes is all of them: both have the length that R42 finds from the same first bytes. -/
theorem tableWordBytes_eq_encode {nbits w : Nat} {i : Instr} {rest : List Byte} (hi : i.wf = true)
    (h : tableWordBytes nbits w = encode i ++ rest) : tableWordBytes nbits w = encode i := by
  rw [tableWordBytes] at h ⊢
  generalize w % 2 ^ nbits = v at h ⊢
  have hlength := congrArg List.length h
  rw [leBytes_length, List.length_append] at hlength
  have hbyte (k : Nat) (hk : k < (encode i).length) : (encode i).getD k 0 = BitVec.ofNat 8 (v >>> (8 * k)) := by
    rw [← List.getD_append _ rest _ _ hk, ← h, leBytes_getD v (by omega)]
  have hsame : (encode i).length =
      commandLength (BitVec.ofNat 8 v) (BitVec.ofNat 8 (v >>> 8)) (BitVec.ofNat 8 (v >>> 16)) := by
    rw [← show (encode i).getD 0 0 = BitVec.ofNat 8 v from hbyte 0 (encode_length_pos i), encode_length hi]
    refine commandLength_congr fun hop => ?_
    have hthree : 3 ≤ (encode i).length := by
      rw [encode_length hi, hop, commandLength_draw]
      omega
    exact ⟨hbyte 1 (by omega), hbyte 2 (by omega)⟩
  have hrest : rest = [] := List.eq_nil_of_length_eq_zero (by omega)
  rw [h, hrest, List.append_nil]

/-- A table word that reads as a command is laid out as exactly the command's bytes (R42, log 15). -/
theorem decodeTableWord_some {nbits w : Nat} {i : Instr} (h : decodeTableWord nbits w = some i) :
    i.wf = true ∧ tableWordBytes nbits w = encode i := by
  have hspells := decode_spells (tableWordBytes nbits w)
  rw [decodeTableWord] at h
  cases hd : decode (tableWordBytes nbits w) with
  | command j rest =>
    rw [hd] at h hspells
    cases h
    obtain ⟨hi, hbytes⟩ := hspells
    exact ⟨hi, tableWordBytes_eq_encode hi hbytes⟩
  | illegal op rest =>
    rw [hd] at h
    cases h
  | incomplete =>
    rw [hd] at h
    cases h

/-- Settles O18: the placed word is the command's bytes in front of the stream, so the step consumes exactly them. -/
theorem placedTableWordRunsNext : Obligations.PlacedTableWordRunsNext := by
  intro s nbits w i h
  obtain ⟨hi, hbytes⟩ := decodeTableWord_some h
  have hd : decode (s.withFetchWord nbits w).cmd = .command i s.cmd := by
    rw [withFetchWord_cmd, hbytes, decode_encode_append s.cmd hi]
  exact stepRunsTheDecodedCommand (s.withFetchWord nbits w) i s.cmd hd

/-! ### Listings -/

/-- The minimal field of a number has its value (R43). -/
theorem beNat_beBytes_byteLen (m : Nat) : beNat (beBytes (byteLen m) m) = m := by
  rw [beNat_beBytes, ← pow_two_eight, Nat.mod_eq_of_lt (lt_two_pow_byteLen m)]

/-- A longer field is the minimal one behind zero bytes (R43). -/
theorem beBytes_eq_padded {m len : Nat} (h : byteLen m ≤ len) :
    beBytes len m = List.replicate (len - byteLen m) 0 ++ beBytes (byteLen m) m := by
  have hfit : m < 256 ^ byteLen m := by
    rw [← pow_two_eight]
    exact lt_two_pow_byteLen m
  rw [← beBytes_add_of_lt _ hfit, Nat.sub_add_cancel h]

theorem encode_draw_beBytes (len m : Nat) : encode (.draw (beBytes len m)) = opDraw :: (beBytes 2 len ++ beBytes len m) := by
  rw [encode, beBytes_length]

/-- Settles O7: each listing is one range test; in range the operand is encoded as it is, and the padded field of a draw is the minimal
one behind zero bytes. -/
theorem listingsAssemble : Obligations.ListingsAssemble := by
  refine ⟨fun t ht => ?seedt, fun x hx => ?seedx, ⟨.rdst, rfl, rfl⟩, fun m hm => ?draw, fun m len hm hlen => ?padded,
    fun t ht => if_neg (by omega), fun x hx => if_neg (by omega), fun m hm => if_neg ?drawOut, fun m len h => if_neg ?paddedOut⟩
  case seedt =>
    refine ⟨_, if_pos ht, ?_⟩
    rw [encode, BitVec.toNat_ofNat, Nat.mod_eq_of_lt ht]
    rfl
  case seedx =>
    refine ⟨_, if_pos hx, ?_⟩
    rw [encode, BitVec.toNat_ofNat, Nat.mod_eq_of_lt hx]
    rfl
  case draw =>
    exact ⟨_, _, if_pos hm, encode_draw_beBytes (byteLen m) m, beBytes_length _ _, beNat_beBytes_byteLen m⟩
  case padded =>
    refine ⟨_, _, if_pos ⟨hm, hlen⟩, ?_, beBytes_length (byteLen m) m, beNat_beBytes_byteLen m⟩
    rw [encode_draw_beBytes, ← beBytes_eq_padded hm]
    rfl
  case drawOut =>
    rw [maxLen]
    omega
  case paddedOut =>
    rw [maxLen]
    omega

/-! ### The draw: its value, and what it writes and answers -/

/-- DRAW on every state, as one equation (R80). -/
theorem exec_draw (f : List Byte) (s : State) :
    exec (.draw f) s = .next
      { s with
        rr := (drawValue (beNat f) s.rr).2
        rsp := s.rsp ++ statusOk :: beBytes f.length (drawValue (beNat f) s.rr).1 } := rfl

theorem drawValue_small {m : Nat} (rr : U64) (h : byteLen m ≤ 2) : drawValue m rr = drawSmall m rr :=
  if_pos h

theorem drawValue_wide {m : Nat} (rr : U64) (h : ¬ byteLen m ≤ 2) : drawValue m rr = drawWide m (byteLen m) rr :=
  if_neg h

/-- The result of a draw never exceeds its modulus, 0 included (R39). -/
theorem drawValue_le (m : Nat) (rr : U64) : (drawValue m rr).1 ≤ m := by
  by_cases hlen : byteLen m ≤ 2
  · rw [drawValue_small rr hlen, drawSmall]
    dsimp only
    split
    · exact Nat.zero_le m
    · next hm => exact (Nat.mod_lt _ (Nat.pos_of_ne_zero hm)).le
  · have hm : 0 < m := by
      rw [byteLen_le_two] at hlen
      omega
    rw [drawValue_wide rr hlen]
    exact (Nat.mod_lt _ hm).le

/-- Settles O42: the zero bytes leave the modulus as it is, and its result fits the field without them, so the wider response has the
same bytes behind as many zeros. -/
theorem leadingZerosWidenOnlyTheResponse : Obligations.LeadingZerosWidenOnlyTheResponse := by
  intro f k s
  have hfit : (drawValue (beNat f) s.rr).1 < 256 ^ f.length := (drawValue_le _ _).trans_lt (beNat_lt f)
  refine ⟨_, _, exec_draw f s, rfl, beBytes_length _ _, ?padded⟩
  case padded =>
    rw [exec_draw, beNat_replicate_zero_append, List.length_append, List.length_replicate, beBytes_add_of_lt k hfit]
    rfl

/-- Settles O43: the modulus 0 takes the small arm, which runs MIX2; 0x10000 is the least of three bytes, for which the wide arm makes
one pass. -/
theorem stepPseudoInstructions : Obligations.StepPseudoInstructions := by
  have hlen : byteLen 0x10000 = 3 := by decide
  have hrr (rr : U64) : (drawValue 0x10000 rr).2 = mix3 rr := by
    rw [drawValue_wide rr (by decide), hlen, drawWide_rr]
    rfl
  refine ⟨.draw [], .draw [0x01, 0x00, 0x00], by decide, by decide, by decide, by decide, fun s => ⟨?step2, ?step3⟩⟩
  case step2 =>
    rw [exec_draw, beNat_nil, drawValue_small s.rr (by decide)]
    rfl
  case step3 =>
    obtain ⟨b0, b1, b2, hpayload⟩ := List.length_eq_three.mp (beBytes_length 3 (drawValue 0x10000 s.rr).1)
    refine ⟨b0, b1, b2, ?_⟩
    rw [← hpayload, ← hrr]
    rfl

/-- Settles O13: one response per command, whose payload is empty, the eight bytes of `RR`, or a field as long as the modulus field. -/
theorem responseLengthIsFixedByTheCommand : Obligations.ResponseLengthIsFixedByTheCommand := by
  intro i s s' h
  cases i with
  | seedt t =>
    obtain ⟨-, -, -, -, hcmd, hrsp⟩ := execSeedt_next h
    exact ⟨hcmd, [], hrsp, rfl⟩
  | seedx x =>
    obtain ⟨-, -, -, -, hcmd, hrsp⟩ := execSeedx_next h
    exact ⟨hcmd, _, hrsp, beBytes_length 8 _⟩
  | rdst =>
    rw [execRdst_next h]
    exact ⟨respond_cmd _ s, _, respond_rsp _ s, beBytes_length 8 _⟩
  | draw f =>
    obtain ⟨-, -, -, -, hcmd, hrsp⟩ := execDraw_next h
    exact ⟨hcmd, _, hrsp, beBytes_length f.length _⟩

end Sys2Proof.Proofs

/-! PROOFS. The platform source (40_platform_source.md): PRS.SEED (R53), PRS.NEXT (R54) and the arithmetic of its state (R55). -/

namespace Sys2Proof.Proofs

open Sys2Proof.Machine Sys2Proof.Laws

/-! ### PRS.SEED and PRS.NEXT on a state -/

/-- Settles O21: PRS.SEED is the record update itself. -/
theorem prsSeedCopiesTheTimestamp : Obligations.PrsSeedCopiesTheTimestamp := by
  intro t s
  rfl

theorem prsModulus_pos (r : PrsRow) : 0 < prsModulus r :=
  Nat.succ_pos _

theorem prsModulus_le (r : PrsRow) : prsModulus r ≤ 2 ^ 32 :=
  r.modPred.isLt

/-- The 32 bits of `PS` lose nothing of the reduced sum, since no modulus exceeds `2^32` (R55). -/
@[simp] theorem prsAdvance_toNat (r : PrsRow) (ps : U32) :
    (prsAdvance r ps).toNat = (ps.toNat * r.mult.toNat + r.inc.toNat) % prsModulus r := by
  have hfit : (ps.toNat * r.mult.toNat + r.inc.toNat) % prsModulus r < 2 ^ 32 :=
    (Nat.mod_lt _ (prsModulus_pos r)).trans_le (prsModulus_le r)
  rw [prsAdvance, BitVec.toNat_ofNat, Nat.mod_eq_of_lt hfit]

@[simp] theorem prsOutput_toNat (r : PrsRow) (ps : U32) :
    (prsOutput r ps).toNat = (ps.toNat >>> r.shift.val) &&& r.mask.toNat := by
  rw [prsOutput, BitVec.toNat_and, BitVec.toNat_ushiftRight]

/-- Settles O22: with the advanced state and its output named, what is left is their value as naturals, for the row of `PLAT`. -/
theorem prsNextAdvancesThenOutputs : Obligations.PrsNextAdvancesThenOutputs := by
  intro s
  refine ⟨_, _, rfl, fun r hr => ?values⟩
  case values =>
    have hrow : prsRow s.rows s.plat = r := by
      rw [hr]
      cases s.plat <;> rfl
    rw [hrow]
    exact ⟨prsAdvance_toNat r s.ps, prsOutput_toNat r _⟩

/-! ### The bounds of PRS.NEXT, and a modulus that is a power of two -/

/-- The product of two 32-bit words is below `2^64`. -/
theorem prsProduct_lt (r : PrsRow) (ps : U32) : ps.toNat * r.mult.toNat < 2 ^ 64 :=
  calc ps.toNat * r.mult.toNat < 2 ^ 32 * 2 ^ 32 := Nat.mul_lt_mul'' ps.isLt r.mult.isLt
    _ = 2 ^ 64 := by norm_num

theorem prsAdvance_lt (r : PrsRow) (ps : U32) : (prsAdvance r ps).toNat < prsModulus r := by
  rw [prsAdvance_toNat]
  exact Nat.mod_lt _ (prsModulus_pos r)

/-- Wrapping the product and then the sum at `w` bits keeps the low `k` bits, for every `w` from `k` up. -/
theorem wrapping_mod_two_pow {k w : Nat} (p c : Nat) (hkw : k ≤ w) : (p % 2 ^ w + c) % 2 ^ w % 2 ^ k = (p + c) % 2 ^ k := by
  rw [Nat.mod_add_mod, Nat.mod_mod_of_dvd _ (pow_dvd_pow 2 hkw)]

/-- With the modulus `2^k` the advance is the low `k` bits of the sum, wrapped at any width from `k` up (R55). -/
theorem prsAdvance_wrapping {r : PrsRow} {k w : Nat} (ps : U32) (hm : prsModulus r = 2 ^ k) (hkw : k ≤ w) :
    (prsAdvance r ps).toNat = (ps.toNat * r.mult.toNat % 2 ^ w + r.inc.toNat) % 2 ^ w % 2 ^ k := by
  rw [prsAdvance_toNat, hm, wrapping_mod_two_pow _ _ hkw]

/-- The same at 32 bits, with the wrapping multiply and add of words. -/
theorem prsAdvance_wrapping_words {r : PrsRow} {k : Nat} (ps : U32) (hm : prsModulus r = 2 ^ k) (hk : k ≤ 32) :
    (prsAdvance r ps).toNat = (ps * r.mult + r.inc).toNat % 2 ^ k := by
  rw [prsAdvance_wrapping ps hm hk, BitVec.toNat_add, BitVec.toNat_mul]

/-- A mask of the `k` low ones reduces a word modulo `2^k`. -/
theorem toNat_and_lowMask {k : Nat} (x : U32) (hk : k < 32) :
    (x &&& BitVec.ofNat 32 (2 ^ k - 1)).toNat = x.toNat % 2 ^ k := by
  have hmask : 2 ^ k - 1 < 2 ^ 32 := (Nat.sub_le _ _).trans_lt (Nat.pow_lt_pow_right (by decide) hk)
  rw [BitVec.toNat_and, BitVec.toNat_ofNat, Nat.mod_eq_of_lt hmask, Nat.and_two_pow_sub_one_eq_mod]

/-- Settles O23: the bounds are those of the row's 32-bit fields; for a power of two, wrapping keeps the low bits, a mask takes them,
and at `k = 32` there is nothing to mask. -/
theorem prsArithmeticIsBounded : Obligations.PrsArithmeticIsBounded := by
  intro r ps
  refine ⟨prsProduct_lt r ps, Nat.add_lt_add (prsProduct_lt r ps) r.inc.isLt, prsAdvance_lt r ps, prsModulus_le r,
    (prsOutput r ps).isLt, fun k hk hm => ⟨?lowBits, fun w => prsAdvance_wrapping ps hm, ?masked, ?full⟩, rfl, rfl⟩
  case lowBits => rw [prsAdvance_toNat, hm]
  case masked =>
    intro hlt
    apply BitVec.eq_of_toNat_eq
    rw [prsAdvance_wrapping_words ps hm hk, toNat_and_lowMask _ hlt]
  case full =>
    rintro rfl
    apply BitVec.eq_of_toNat_eq
    rw [prsAdvance_wrapping_words ps hm hk, Nat.mod_eq_of_lt (ps * r.mult + r.inc).isLt]

end Sys2Proof.Proofs

/-! PROOFS. The mixing step (41_mixing_step.md): what PASS writes (R61), the bounds of its two uses (R65), when they carry (R68), and
the closed forms of MIX3 and MIX2 (R66, R67). -/

namespace Sys2Proof.Proofs

open Sys2Proof.Machine Sys2Proof.Laws

/-! ### The two configurations -/

/-- What the two configurations have in common: the narrow mask covers `s` bits, the wide mask the lane above them too (R60). -/
structure MixMasks (c : MixConfig) : Prop where
  narrow : c.narrow.toNat = 2 ^ c.shift - 1
  wide : c.wide.toNat = 2 ^ (c.shift + 16) - 1
  shift_pos : 0 < c.shift
  shift_le : c.shift ≤ 48

theorem mixMasks3 : MixMasks mixConfig3 :=
  ⟨mixConfig3_narrow, mixConfig3_wide, by decide, le_rfl⟩

theorem mixMasks2 : MixMasks mixConfig2 :=
  ⟨mixConfig2_narrow, mixConfig2_wide, by decide, by decide⟩

theorem mixMasks_of_config {c : MixConfig} (hc : c = mixConfig3 ∨ c = mixConfig2) : MixMasks c := by
  obtain rfl | rfl := hc
  · exact mixMasks3
  · exact mixMasks2

theorem MixMasks.carry_iff {c : MixConfig} (hc : MixMasks c) (a : U64) :
    carryEscaped c.narrow c.shift a = true ↔ 2 ^ c.shift ≤ a.toNat :=
  carryEscaped_iff c.narrow a c.shift hc.narrow

theorem MixMasks.not_carry_iff {c : MixConfig} (hc : MixMasks c) (a : U64) :
    carryEscaped c.narrow c.shift a = false ↔ a.toNat < 2 ^ c.shift := by
  rw [← Bool.not_eq_true, hc.carry_iff, not_le]

/-! ### PASS: the low field of a word replaced -/

/-- A value that fits the low `k` bits has none in common with a word these are masked off. -/
theorem maskedOff_and_eq_zero {m a : U64} {k : Nat} (v : U64) (hm : m.toNat = 2 ^ k - 1) (ha : a.toNat < 2 ^ k) :
    (v &&& ~~~m) &&& a = 0 := by
  have hzero : a &&& ~~~m = 0#64 := by
    apply BitVec.eq_of_toNat_eq
    rw [and_high_toNat a m k hm, Nat.div_eq_of_lt ha, Nat.zero_mul]
    rfl
  rw [BitVec.and_assoc, BitVec.and_comm (~~~m), hzero]
  exact BitVec.and_zero

/-- So adding it is exact, and puts it in the place of these bits. -/
theorem maskedOff_add_toNat {m a : U64} {k : Nat} (v : U64) (hm : m.toNat = 2 ^ k - 1) (ha : a.toNat < 2 ^ k) :
    ((v &&& ~~~m) + a).toNat = v.toNat / 2 ^ k * 2 ^ k + a.toNat := by
  rw [BitVec.toNat_add_of_and_eq_zero (maskedOff_and_eq_zero v hm ha), and_high_toNat v m k hm]

theorem mixPass_of_not_carry {c : MixConfig} {a : U64} (v : U64) (h : carryEscaped c.narrow c.shift a = false) :
    mixPass c a v = (v &&& ~~~c.narrow) + a := by
  rw [mixPass, h, if_neg Bool.false_ne_true]

theorem mixPass_of_carry {c : MixConfig} {a : U64} (v : U64) (h : carryEscaped c.narrow c.shift a = true) :
    mixPass c a v = (v &&& ~~~c.wide) + a := by
  rw [mixPass, h, if_pos rfl]

/-- Below `2^s` a pass replaces the narrow field (R61). -/
theorem MixMasks.mixPass_narrow {c : MixConfig} (hc : MixMasks c) {a : U64} (v : U64) (ha : a.toNat < 2 ^ c.shift) :
    (mixPass c a v).toNat = v.toNat / 2 ^ c.shift * 2 ^ c.shift + a.toNat := by
  rw [mixPass_of_not_carry v ((hc.not_carry_iff a).mpr ha), maskedOff_add_toNat v hc.narrow ha]

/-- From `2^s` on it replaces the wide field (R61, C3). -/
theorem MixMasks.mixPass_wide {c : MixConfig} (hc : MixMasks c) {a : U64} (v : U64) (hcarry : 2 ^ c.shift ≤ a.toNat)
    (ha : a.toNat < 2 ^ (c.shift + 16)) :
    (mixPass c a v).toNat = v.toNat / 2 ^ (c.shift + 16) * 2 ^ (c.shift + 16) + a.toNat := by
  rw [mixPass_of_carry v ((hc.carry_iff a).mpr hcarry), maskedOff_add_toNat v hc.wide ha]

/-- Settles O24: the carry test is a comparison with `2^s`, and each of its two answers replaces one field. -/
theorem passIsCarrySelect : Obligations.PassIsCarrySelect := by
  intro c hconfig a rr
  have hc := mixMasks_of_config hconfig
  exact ⟨hc.carry_iff a, hc.mixPass_narrow rr, hc.mixPass_wide rr⟩

/-! ### The values of the two passes -/

theorem MixMasks.narrow_field {c : MixConfig} (hc : MixMasks c) (rr : U64) : (rr &&& c.narrow).toNat = rr.toNat % 2 ^ c.shift :=
  and_low_toNat rr c.narrow c.shift hc.narrow

theorem MixMasks.narrow_field_lt {c : MixConfig} (hc : MixMasks c) (rr : U64) : (rr &&& c.narrow).toNat < 2 ^ c.shift := by
  rw [hc.narrow_field]
  exact Nat.mod_lt _ (by positivity)

theorem MixMasks.two_pow_shift_le {c : MixConfig} (hc : MixMasks c) : 2 ^ c.shift ≤ 2 ^ 48 :=
  Nat.pow_le_pow_right two_pos hc.shift_le

/-- The sum of pass A does not wrap (R65). -/
theorem MixMasks.sum_toNat {c : MixConfig} (hc : MixMasks c) (rr : U64) :
    ((rr &&& c.narrow) + incConst).toNat = (rr &&& c.narrow).toNat + 57777 := by
  have hfield := hc.narrow_field_lt rr
  have hpow := hc.two_pow_shift_le
  rw [BitVec.toNat_add, incConst_toNat, Nat.mod_eq_of_lt (by omega)]

/-- The product of pass B does not wrap (R65). -/
theorem MixMasks.product_toNat {c : MixConfig} (hc : MixMasks c) (rr : U64) :
    ((rr &&& c.narrow) * scalConst).toNat = (rr &&& c.narrow).toNat * 56857 := by
  have hfield := hc.narrow_field_lt rr
  have hpow := hc.two_pow_shift_le
  rw [BitVec.toNat_mul, scalConst_toNat, Nat.mod_eq_of_lt (by omega)]

theorem MixMasks.sum_lt {c : MixConfig} (hc : MixMasks c) (rr : U64) :
    ((rr &&& c.narrow) + incConst).toNat < 2 ^ c.shift + 2 ^ 16 := by
  rw [hc.sum_toNat]
  exact Nat.add_lt_add (hc.narrow_field_lt rr) (by norm_num)

theorem MixMasks.product_lt {c : MixConfig} (hc : MixMasks c) (rr : U64) :
    ((rr &&& c.narrow) * scalConst).toNat < 2 ^ c.shift * 2 ^ 16 := by
  rw [hc.product_toNat]
  exact Nat.mul_lt_mul'' (hc.narrow_field_lt rr) (by norm_num)

/-- Both pass values fit the wide field (R65). -/
theorem MixMasks.sum_fits {c : MixConfig} (hc : MixMasks c) (rr : U64) :
    ((rr &&& c.narrow) + incConst).toNat < 2 ^ (c.shift + 16) :=
  calc ((rr &&& c.narrow) + incConst).toNat < 2 ^ c.shift + 2 ^ 16 := hc.sum_lt rr
    _ ≤ 2 ^ c.shift * 2 ^ 16 := Nat.add_le_mul (Nat.le_self_pow hc.shift_pos.ne' 2) (by norm_num)
    _ = 2 ^ (c.shift + 16) := (pow_add 2 c.shift 16).symm

theorem MixMasks.product_fits {c : MixConfig} (hc : MixMasks c) (rr : U64) :
    ((rr &&& c.narrow) * scalConst).toNat < 2 ^ (c.shift + 16) :=
  (hc.product_lt rr).trans_eq (pow_add 2 c.shift 16).symm

/-- Settles O25: the pass values are exact and fit the wide field, and a value that fits the field it replaces shares no bit with the
part that is kept. -/
theorem noOverflowInsideAStep : Obligations.NoOverflowInsideAStep := by
  intro c hconfig rr v
  have hc := mixMasks_of_config hconfig
  have hfield : (rr &&& c.narrow).toNat ≤ 2 ^ 48 - 1 :=
    Nat.le_sub_one_of_lt ((hc.narrow_field_lt rr).trans_le hc.two_pow_shift_le)
  refine ⟨Nat.add_le_add_right hfield _, hc.sum_toNat rr, Nat.mul_le_mul_right 56857 hfield, hc.product_toNat rr, hc.sum_lt rr,
    hc.product_lt rr, fun a ha => ⟨fun hkeep => ?narrow, fun hcarry => ?wide⟩⟩
  case narrow =>
    have hlt := (hc.not_carry_iff a).mp hkeep
    have hdisjoint := maskedOff_and_eq_zero v hc.narrow hlt
    rw [mixPass_of_not_carry v hkeep]
    exact ⟨hlt, hdisjoint, BitVec.add_eq_or_of_and_eq_zero _ _ hdisjoint, BitVec.toNat_add_of_and_eq_zero hdisjoint⟩
  case wide =>
    have hlt : a.toNat < 2 ^ (c.shift + 16) := by
      obtain rfl | rfl := ha
      · exact hc.sum_fits rr
      · exact hc.product_fits rr
    have hdisjoint := maskedOff_and_eq_zero v hc.wide hlt
    rw [mixPass_of_carry v hcarry]
    exact ⟨hlt, hdisjoint, BitVec.add_eq_or_of_and_eq_zero _ _ hdisjoint, BitVec.toNat_add_of_and_eq_zero hdisjoint⟩

/-! ### The narrow field and the lane above it after a pass -/

/-- Either way a pass leaves the low `s` bits of `a` in the narrow field. -/
theorem MixMasks.mixPass_narrow_field {c : MixConfig} (hc : MixMasks c) {a : U64} (v : U64) (ha : a.toNat < 2 ^ (c.shift + 16)) :
    (mixPass c a v).toNat % 2 ^ c.shift = a.toNat % 2 ^ c.shift := by
  obtain hlt | hge := lt_or_ge a.toNat (2 ^ c.shift)
  · rw [hc.mixPass_narrow v hlt, Nat.mul_add_mod_self_right]
  · rw [hc.mixPass_wide v hge ha, pow_add, mul_comm (2 ^ c.shift), ← mul_assoc, Nat.mul_add_mod_self_right]

/-- The lane above is replaced by what of `a` escapes the narrow field; where nothing does, it is kept. -/
theorem MixMasks.mixPass_lane_above {c : MixConfig} (hc : MixMasks c) {a : U64} (v : U64) (ha : a.toNat < 2 ^ (c.shift + 16)) :
    (mixPass c a v).toNat / 2 ^ c.shift % 2 ^ 16 =
      if 2 ^ c.shift ≤ a.toNat then a.toNat / 2 ^ c.shift else v.toNat / 2 ^ c.shift % 2 ^ 16 := by
  have hpos : 0 < 2 ^ c.shift := by positivity
  split
  case isTrue hge =>
    have hescaped : a.toNat / 2 ^ c.shift < 2 ^ 16 := Nat.div_lt_of_lt_mul (by rwa [← pow_add])
    rw [hc.mixPass_wide v hge ha, pow_add, mul_comm (2 ^ c.shift), ← mul_assoc, mul_comm, Nat.mul_add_div hpos,
      Nat.mul_add_mod_self_right, Nat.mod_eq_of_lt hescaped]
  case isFalse hlt =>
    rw [hc.mixPass_narrow v (not_le.mp hlt), mul_comm, Nat.mul_add_div hpos, Nat.div_eq_of_lt (not_le.mp hlt), Nat.add_zero]

theorem MixMasks.mixPassA_narrow_field {c : MixConfig} (hc : MixMasks c) (rr : U64) :
    (mixPassA c rr).toNat % 2 ^ c.shift = (rr.toNat % 2 ^ c.shift + 57777) % 2 ^ c.shift := by
  rw [mixPassA, hc.mixPass_narrow_field rr (hc.sum_fits rr), hc.sum_toNat, hc.narrow_field]

/-- The product of pass B of a step, on what pass A left. -/
theorem MixMasks.second_product_toNat {c : MixConfig} (hc : MixMasks c) (rr : U64) :
    ((mixPassA c rr &&& c.narrow) * scalConst).toNat = (rr.toNat % 2 ^ c.shift + 57777) % 2 ^ c.shift * 56857 := by
  rw [hc.product_toNat, hc.narrow_field, hc.mixPassA_narrow_field]

/-- The narrow field after both passes: the multiplier takes the sum modulo `2^s`. -/
theorem MixMasks.passes_narrow_field {c : MixConfig} (hc : MixMasks c) (rr : U64) :
    (mixPassB c (mixPassA c rr)).toNat % 2 ^ c.shift = (rr.toNat % 2 ^ c.shift + 57777) * 56857 % 2 ^ c.shift := by
  rw [mixPassB, hc.mixPass_narrow_field _ (hc.product_fits _), hc.second_product_toNat, Nat.mod_mul_mod]

/-- The lane above after both passes: the last pass that carries decides (R67). -/
theorem MixMasks.passes_lane_above {c : MixConfig} (hc : MixMasks c) (rr : U64) {a1 a2 : Nat}
    (ha1 : a1 = rr.toNat % 2 ^ c.shift + 57777) (ha2 : a2 = a1 % 2 ^ c.shift * 56857) :
    (mixPassB c (mixPassA c rr)).toNat / 2 ^ c.shift % 2 ^ 16 =
      if 2 ^ c.shift ≤ a2 then a2 / 2 ^ c.shift
      else if 2 ^ c.shift ≤ a1 then a1 / 2 ^ c.shift else rr.toNat / 2 ^ c.shift % 2 ^ 16 := by
  rw [mixPassB, hc.mixPass_lane_above _ (hc.product_fits _), hc.second_product_toNat, ← ha1, ← ha2,
    mixPassA, hc.mixPass_lane_above _ (hc.sum_fits rr), hc.sum_toNat, hc.narrow_field, ← ha1]

/-- A step is its two passes, then the guard over lane 3 (R62). -/
theorem mix_toNat (c : MixConfig) (rr : U64) : (mix c rr).toNat = 2 ^ 48 + (mixPassB c (mixPassA c rr)).toNat % 2 ^ 48 :=
  setLane_guard_toNat _

/-- The OR of the guard bit and a value below it is a sum. -/
theorem guard_or {n : Nat} (hn : n < 2 ^ 48) : 0x0001000000000000 ||| n = 2 ^ 48 + n :=
  (Nat.two_pow_add_eq_or_of_lt hn 1).symm

/-! ### When a pass carries -/

/-- Pass A carries where the narrow field is within `INC` of its end (R68). -/
theorem MixMasks.passA_carry_iff {c : MixConfig} (hc : MixMasks c) (rr : U64) :
    carryEscaped c.narrow c.shift ((rr &&& c.narrow) + incConst) = true ↔ 2 ^ c.shift ≤ rr.toNat % 2 ^ c.shift + 57777 := by
  rw [hc.carry_iff, hc.sum_toNat, hc.narrow_field]

/-- Pass B carries where the product of what pass A left reaches the end of the narrow field (R68). -/
theorem MixMasks.passB_carry_iff {c : MixConfig} (hc : MixMasks c) (rr : U64) :
    carryEscaped c.narrow c.shift ((mixPassA c rr &&& c.narrow) * scalConst) = true ↔
      2 ^ c.shift ≤ (rr.toNat % 2 ^ c.shift + 57777) % 2 ^ c.shift * 56857 := by
  rw [hc.carry_iff, hc.second_product_toNat]

/-- Settles O28: the two comparisons with `2^s`, solved for the narrow field; a sum that wraps leaves less than `INC`, which is below
the threshold of pass B. -/
theorem passCarryThresholds : Obligations.PassCarryThresholds := by
  rintro rr lo x hlo hx A2 B2 A3 B3 hA2 hB2 hA3 hB3
  rw [mixMasks2.passA_carry_iff, show mixConfig2.shift = 32 from rfl, ← hlo] at hA2
  rw [mixMasks2.passB_carry_iff, show mixConfig2.shift = 32 from rfl, ← hlo] at hB2
  rw [mixMasks3.passA_carry_iff, show mixConfig3.shift = 48 from rfl, ← hx] at hA3
  rw [mixMasks3.passB_carry_iff, show mixConfig3.shift = 48 from rfl, ← hx] at hB3
  rw [hA2, hB2, hA3, hB3]
  have hlo_lt : lo < 2 ^ 32 := hlo ▸ Nat.mod_lt _ (by norm_num)
  have hx_lt : x < 2 ^ 48 := hx ▸ Nat.mod_lt _ (by norm_num)
  refine ⟨?_, ?_, ?_, ?_, ?_, ?_, ?_, ?_⟩ <;> omega

/-! ### MIX3 -/

/-- MIX3 as arithmetic: what the passes leave above bit 47 is overwritten by the guard (R66). -/
theorem mix3_toNat (rr : U64) : (mix3 rr).toNat = 2 ^ 48 + (rr.toNat % 2 ^ 48 + 57777) * 56857 % 2 ^ 48 := by
  rw [mix3, mix_toNat]
  exact congrArg (2 ^ 48 + ·) (mixMasks3.passes_narrow_field rr)

/-- The increment cancels, and `SCAL` is odd, so it cancels modulo `2^48` (R66). -/
theorem mix3_eq_iff (rr v : U64) : mix3 rr = mix3 v ↔ rr.toNat % 2 ^ 48 = v.toNat % 2 ^ 48 := by
  rw [← BitVec.toNat_inj, mix3_toNat, mix3_toNat]
  refine ⟨fun h => ?cancel, fun h => by rw [h]⟩
  case cancel =>
    have hproduct : (rr.toNat % 2 ^ 48 + 57777) * 56857 ≡ (v.toNat % 2 ^ 48 + 57777) * 56857 [MOD 2 ^ 48] :=
      Nat.add_left_cancel h
    have hsum := hproduct.cancel_right_of_coprime (by norm_num)
    have hfield := hsum.add_right_cancel'
    rwa [Nat.ModEq, Nat.mod_mod, Nat.mod_mod] at hfield

/-- The inverse of `SCAL` modulo `2^48`. -/
def scalInverse : Nat := 30455951892009

theorem scalInverse_spec : scalInverse * 56857 % 2 ^ 48 = 1 := by decide

/-- A word that MIX3 takes to `y` under the guard: pass B undone, then pass A. -/
def mix3Preimage (y : Nat) : U64 :=
  BitVec.ofNat 64 (y * scalInverse + (2 ^ 48 - 57777))

theorem mix3_mix3Preimage {y : Nat} (hy : y < 2 ^ 48) : (mix3 (mix3Preimage y)).toNat % 2 ^ 48 = y := by
  have hlow : (mix3Preimage y).toNat % 2 ^ 48 = (y * scalInverse + (2 ^ 48 - 57777)) % 2 ^ 48 := by
    rw [mix3Preimage, BitVec.toNat_ofNat, Nat.mod_mod_of_dvd _ (pow_dvd_pow 2 (by norm_num))]
  calc (mix3 (mix3Preimage y)).toNat % 2 ^ 48
      = ((y * scalInverse + (2 ^ 48 - 57777)) % 2 ^ 48 + 57777) * 56857 % 2 ^ 48 := by
        rw [mix3_toNat, hlow, Nat.add_mod_left, Nat.mod_mod]
    _ = (y * scalInverse + 2 ^ 48) * 56857 % 2 ^ 48 := by
        rw [← Nat.mod_mul_mod, Nat.mod_add_mod, Nat.mod_mul_mod, Nat.add_assoc, Nat.sub_add_cancel (by norm_num)]
    _ = y * (scalInverse * 56857) % 2 ^ 48 := by
        rw [← Nat.mod_mul_mod, Nat.add_mod_right, Nat.mod_mul_mod, Nat.mul_assoc]
    _ = y := by
        rw [← Nat.mul_mod_mod, scalInverse_spec, Nat.mul_one, Nat.mod_eq_of_lt hy]

/-- Settles O26: the guard's OR is a sum; MIX3 agrees exactly where the low 48 bits do; and each value has its preimage. -/
theorem mix3ClosedForm : Obligations.Mix3ClosedForm := by
  refine ⟨fun rr => ?value, fun rr v => (mix3_eq_iff rr v).mpr, fun rr v => (mix3_eq_iff rr v).mp,
    fun y hy => ⟨mix3Preimage y, mix3_mix3Preimage hy⟩⟩
  case value => rw [mix3_toNat, guard_or (Nat.mod_lt _ (by norm_num))]

/-! ### MIX2 -/

/-- The low 48 bits of a word: lane 2 over the low 32 bits. -/
theorem low48_eq (n : Nat) : n % 2 ^ 48 = n % 2 ^ 32 + n / 2 ^ 32 % 2 ^ 16 * 2 ^ 32 := by
  rw [show 2 ^ 48 = 2 ^ 32 * 2 ^ 16 from rfl, Nat.mod_mul, Nat.mul_comm (2 ^ 32)]

theorem lane_two_toNat (rr : U64) : (lane rr 2).toNat = rr.toNat / 2 ^ 32 % 2 ^ 16 :=
  lane_toNat rr 2

/-- A carry of pass A is 1: the sum stays below twice `2^32` (R67). -/
theorem sum_carry_eq_one {lo : Nat} (hlo : lo < 2 ^ 32) (hcarry : 2 ^ 32 ≤ lo + 57777) : (lo + 57777) / 2 ^ 32 = 1 := by
  omega

/-- The low 48 bits that the two passes of MIX2 leave: lane 2 by the last pass that carries, under it the product (R67). -/
theorem mix2_passes_low48 (rr : U64) {a1 a2 : Nat} (ha1 : a1 = rr.toNat % 2 ^ 32 + 57777) (ha2 : a2 = a1 % 2 ^ 32 * 56857) :
    (mixPassB mixConfig2 (mixPassA mixConfig2 rr)).toNat % 2 ^ 48 =
      a2 % 2 ^ 32 + (if 2 ^ 32 ≤ a2 then a2 / 2 ^ 32 else if 2 ^ 32 ≤ a1 then 1 else (lane rr 2).toNat) * 2 ^ 32 := by
  have hlow : (mixPassB mixConfig2 (mixPassA mixConfig2 rr)).toNat % 2 ^ 32 = a2 % 2 ^ 32 := by
    rw [ha2, Nat.mod_mul_mod, ha1]
    exact mixMasks2.passes_narrow_field rr
  have hlane := mixMasks2.passes_lane_above rr ha1 ha2
  have hone : 2 ^ 32 ≤ a1 → a1 / 2 ^ 32 = 1 :=
    ha1 ▸ sum_carry_eq_one (Nat.mod_lt _ (by norm_num))
  rw [low48_eq, hlow, lane_two_toNat, ← ite_congr rfl hone fun _ => rfl]
  exact congrArg (a2 % 2 ^ 32 + · * 2 ^ 32) hlane

/-- The low 48 bits of a word are all that MIX2 reads (R67). -/
theorem mix2_congr {rr v : U64} (h : v.toNat % 2 ^ 48 = rr.toNat % 2 ^ 48) : mix2 v = mix2 rr := by
  have hlow : v.toNat % 2 ^ 32 = rr.toNat % 2 ^ 32 := by omega
  have hlane : (lane v 2).toNat = (lane rr 2).toNat := by
    rw [lane_two_toNat, lane_two_toNat]
    omega
  apply BitVec.eq_of_toNat_eq
  rw [mix2, mix2, mix_toNat, mix_toNat, mix2_passes_low48 v rfl rfl, mix2_passes_low48 rr rfl rfl, hlow, hlane]

/-- The OR of the guard, lane 2 and the low 32 bits is a sum where the two fields fit below the guard. -/
theorem guard_or_fields {x low : Nat} (hlow : low < 2 ^ 32) (h : low + x * 2 ^ 32 < 2 ^ 48) :
    0x0001000000000000 ||| (x <<< 32) ||| low = 2 ^ 48 + (low + x * 2 ^ 32) := by
  rw [Nat.lor_assoc, Nat.lor_comm (x <<< 32), or_shift_eq_add low x 32 hlow, guard_or h]

/-- Settles O27: the low 48 bits come from the passes, the guard stands over them, and the bounds are those of R65. -/
theorem mix2ClosedForm : Obligations.Mix2ClosedForm := by
  rintro rr a1 x1 a2 ha1 rfl ha2
  have hlo : rr.toNat % 2 ^ 32 < 2 ^ 32 := Nat.mod_lt _ (by norm_num)
  have hx1 : a1 % 2 ^ 32 < 2 ^ 32 := Nat.mod_lt _ (by norm_num)
  have hlow48 := mix2_passes_low48 rr ha1 ha2
  refine ⟨?value, ?sum, ?product, ?carryA, ?carryB, ?low, fun v hv => mix2_congr hv⟩
  case value =>
    have hfits := Nat.mod_lt (mixPassB mixConfig2 (mixPassA mixConfig2 rr)).toNat (show 0 < 2 ^ 48 by norm_num)
    rw [hlow48] at hfits
    rw [mix2, mix_toNat, hlow48, guard_or_fields (Nat.mod_lt _ (by norm_num)) hfits]
  case sum => omega
  case product => omega
  case carryA => exact ha1 ▸ sum_carry_eq_one hlo
  case carryB => omega
  case low =>
    have hpasses := mixMasks2.passes_narrow_field rr
    rw [show mixConfig2.shift = 32 from rfl] at hpasses
    rw [mix2, mix_toNat, ← hpasses]
    omega

/-- Settles O29: a mixing step ends with the guard, in both configurations. -/
theorem guardAfterAStep : Obligations.GuardAfterAStep :=
  fun rr => ⟨lane_mix_guard mixConfig3 rr, lane_mix_guard mixConfig2 rr⟩

end Sys2Proof.Proofs

/-! PROOFS. The seeding commands (42_seeding.md): the nine lines of SEEDT and their closed form (R71, R72), SEEDX (R73, R74), and who
uses the platform source (R14, R15, R18). -/

namespace Sys2Proof.Proofs

open Sys2Proof.Machine Sys2Proof.Laws Sys2Proof.Safety

/-! ### Lane writes as arithmetic -/

/-- A lane's value shifted into place stays below the end of the lane. -/
theorem shiftLeft_lane_lt {pos k : Nat} (x : U16) (hk : pos + 16 ≤ k) : x.toNat <<< pos < 2 ^ k :=
  (Nat.shiftLeft_lt x.isLt).trans_le (Nat.pow_le_pow_right two_pos (by omega))

/-- A lane write on naturals (R8): the mask and the shifted lane both fit the word. -/
theorem setLane_toNat (v : U64) (n : Fin 4) (x : U16) :
    (setLane v n x).toNat =
      (v.toNat &&& (~~~((0xFFFF : U64) <<< (16 * n.val))).toNat) ||| (x.toNat <<< (16 * n.val)) := by
  have hfit : x.toNat <<< (16 * n.val) < 2 ^ 64 := shiftLeft_lane_lt x (by omega)
  rw [setLane, BitVec.toNat_or, BitVec.toNat_and, BitVec.toNat_shiftLeft, BitVec.toNat_setWidth_of_le (by norm_num),
    Nat.mod_eq_of_lt hfit]

/-- A lane below the guard is written within the low 48 bits. -/
theorem setLane_low48 (v : U64) {n : Fin 4} (x : U16) (hn : n.val < 3) :
    (setLane v n x).toNat % 2 ^ 48 =
      (v.toNat % 2 ^ 48 &&& (~~~((0xFFFF : U64) <<< (16 * n.val))).toNat % 2 ^ 48) ||| (x.toNat <<< (16 * n.val)) := by
  have hfit : x.toNat <<< (16 * n.val) < 2 ^ 48 := shiftLeft_lane_lt x (by omega)
  rw [setLane_toNat, Nat.or_mod_two_pow, Nat.and_mod_two_pow, Nat.mod_eq_of_lt hfit]

/-- The low 48 bits after lane 1 is written, as R72 (b) says it. -/
theorem setLane_one_low48 (v : U64) (x : U16) :
    (setLane v 1 x).toNat % 2 ^ 48 = (v.toNat % 2 ^ 48 &&& 0xFFFF0000FFFF) ||| (x.toNat <<< 16) := by
  have hmask : (~~~((0xFFFF : U64) <<< (16 * (1 : Fin 4).val))).toNat % 2 ^ 48 = 0xFFFF0000FFFF := by decide
  rw [setLane_low48 v x (by decide), hmask]
  rfl

/-- The low 48 bits after lane 0 is written, as R72 (b) says it. -/
theorem setLane_zero_low48 (v : U64) (x : U16) :
    (setLane v 0 x).toNat % 2 ^ 48 = (v.toNat % 2 ^ 48 &&& 0xFFFFFFFF0000) ||| x.toNat := by
  have hmask : (~~~((0xFFFF : U64) <<< (16 * (0 : Fin 4).val))).toNat % 2 ^ 48 = 0xFFFFFFFF0000 := by decide
  rw [setLane_low48 v x (by decide), hmask]
  rfl

/-- The guard write in the masks of R73. -/
theorem setLane_guard_eq (v : U64) : setLane v 3 1 = (v &&& 0x0000FFFFFFFFFFFF) ||| 0x0001000000000000 := by
  have hkeep : ~~~((0xFFFF : U64) <<< (16 * (3 : Fin 4).val)) = 0x0000FFFFFFFFFFFF := by decide
  have hguard : ((1 : U16).setWidth 64) <<< (16 * (3 : Fin 4).val) = (0x0001000000000000 : U64) := by decide
  rw [setLane, hkeep, hguard]

/-- Writing what a lane holds changes nothing. -/
theorem setLane_lane_self (v : U64) (n : Fin 4) : setLane v n (lane v n) = v := by
  apply BitVec.eq_of_getLsbD_eq
  intro i hi
  rw [setLane_getLsbD _ _ _ _ hi]
  split
  case isTrue hin =>
    have hlt : i - 16 * n.val < 16 := by omega
    rw [lane_getLsbD, decide_eq_true hlt, Bool.true_and, Nat.add_sub_cancel' hin.1]
  case isFalse => rfl

/-- The guard write keeps exactly the low 48 bits (R74). -/
theorem setLane_guard_eq_iff (x y : U64) : setLane x 3 1 = setLane y 3 1 ↔ x.toNat % 2 ^ 48 = y.toNat % 2 ^ 48 := by
  rw [← BitVec.toNat_inj, setLane_guard_toNat, setLane_guard_toNat, Nat.add_left_cancel_iff]

theorem lane_zero_toNat (v : U64) : (lane v 0).toNat = v.toNat % 2 ^ 16 := by
  rw [lane_toNat]
  exact congrArg (· % 2 ^ 16) (Nat.div_one v.toNat)

/-- The low 48 bits are lanes 0, 1 and 2 (R11). -/
theorem low48_eq_lanes (v : U64) :
    v.toNat % 2 ^ 48 = (lane v 0).toNat + (lane v 1).toNat * 2 ^ 16 + (lane v 2).toNat * 2 ^ 32 := by
  have hone : (lane v 1).toNat = v.toNat / 2 ^ 16 % 2 ^ 16 := lane_toNat v 1
  rw [lane_zero_toNat, hone, lane_two_toNat]
  omega

/-! ### MIX3 on the low bits -/

/-- `f` of R72 (b): MIX3 on the low 48 bits. -/
def mix3Low (x : Nat) : Nat :=
  (x + 57777) * 56857 % 2 ^ 48

theorem mix3Low_lt (x : Nat) : mix3Low x < 2 ^ 48 :=
  Nat.mod_lt _ (by norm_num)

theorem mix3_low48 (v : U64) : (mix3 v).toNat % 2 ^ 48 = mix3Low (v.toNat % 2 ^ 48) := by
  rw [mix3_toNat, Nat.add_mod_left, Nat.mod_mod, mix3Low]

/-- Lane 0 after MIX3 is a function of lane 0 before it (R72 (f)). -/
theorem lane_zero_mix3 (v : U64) : (lane (mix3 v) 0).toNat = ((lane v 0).toNat + 57777) * 56857 % 2 ^ 16 := by
  rw [lane_zero_toNat, lane_zero_toNat, mix3_toNat]
  omega

/-! ### SEEDT on words -/

/-- SEEDT as the composed map of R72 (b). -/
theorem seedtWord_toNat (w : U16) (rr : U64) :
    (seedtWord w rr).toNat =
      2 ^ 48 + mix3Low ((mix3Low ((rr.toNat % 2 ^ 48 &&& 0xFFFF0000FFFF) ||| (w.toNat <<< 16)) &&& 0xFFFFFFFF0000) ||| w.toNat) := by
  rw [seedtWord, setLane_guard_toNat, mix3_low48, setLane_zero_low48, mix3_low48, setLane_one_low48]

/-- Lane 1 is overwritten and MIX3 does not read lane 3, so lanes 0 and 2 are all that SEEDT reads of `RR` (R72 (c)). -/
theorem seedtWord_congr (w : U16) {rr v : U64} (h0 : lane rr 0 = lane v 0) (h2 : lane rr 2 = lane v 2) :
    seedtWord w rr = seedtWord w v := by
  have hfirst : mix3 (setLane rr 1 w) = mix3 (setLane v 1 w) := by
    rw [mix3_eq_iff, low48_eq_lanes, low48_eq_lanes, lane_setLane_same, lane_setLane_same, lane_setLane_ne _ 1 0 _ (by decide),
      lane_setLane_ne _ 1 0 _ (by decide), lane_setLane_ne _ 1 2 _ (by decide), lane_setLane_ne _ 1 2 _ (by decide), h0, h2]
  rw [seedtWord, hfirst, seedtWord]

/-- The second MIX3 runs on a word whose lane 0 is `w` (R72 (f)). -/
theorem lane_zero_seedtWord (w : U16) (rr : U64) : (lane (seedtWord w rr) 0).toNat = (w.toNat + 57777) * 56857 % 2 ^ 16 := by
  rw [seedtWord, lane_setLane_ne _ 3 0 _ (by decide), lane_zero_mix3, lane_setLane_same]

theorem lane_guard_seedtWord (w : U16) (rr : U64) : lane (seedtWord w rr) 3 = 1 :=
  lane_setLane_same _ 3 1

/-! ### SEEDT -/

/-- The output word is read from `PLAT`, the rows and the timestamp (R72 (a)). -/
theorem seedtOutput_congr (t : U32) {s u : State} (hplat : s.plat = u.plat) (hrows : s.rows = u.rows) :
    seedtOutput t s = seedtOutput t u := by
  rw [seedtOutput, hplat, hrows, seedtOutput]

theorem seedtOutput_toNat (t : U32) (s : State) :
    (seedtOutput t s).toNat = (prsOutput (prsRow s.rows s.plat) (prsAdvance (prsRow s.rows s.plat) t)).toNat % 2 ^ 16 :=
  BitVec.toNat_setWidth 16 _

/-- Settles O30: both phases seed with `t` and so write the same output word; the rest is SEEDT's equation. -/
theorem seedtRunsTheNineLines : Obligations.SeedtRunsTheNineLines := by
  intro t s r hr p d hp hd
  have hrow : prsRow s.rows s.plat = r := by
    rw [hr]
    cases s.plat <;> rfl
  rw [exec_seedt, seedtOutput, hrow, ← hp, ← hd]
  rfl

/-- Settles O31: the nine lines, read as words: each lane write and each MIX3 is one step of the composed map on the low 48 bits, and
the guard's OR is a sum. -/
theorem seedtClosedForm : Obligations.SeedtClosedForm := by
  intro t s r hr p w x0 y z f hf hp hw hx0 hy hz
  have hps : prsAdvance r t = BitVec.ofNat 32 p := by
    rw [hp]
    rfl
  have hout : ((prsOutput r (prsAdvance r t)).setWidth 16).toNat = w := by
    rw [BitVec.toNat_setWidth, prsOutput_toNat, prsAdvance_toNat, hw, hp, prsModulus]
  have hmix : f = mix3Low := funext hf
  have hvalue : (seedtWord ((prsOutput r (prsAdvance r t)).setWidth 16) s.rr).toNat = 0x0001000000000000 ||| z := by
    rw [seedtWord_toNat, hout, hz, hy, hx0, hmix, guard_or (mix3Low_lt _)]
  have hrr : seedtWord ((prsOutput r (prsAdvance r t)).setWidth 16) s.rr = BitVec.ofNat 64 (0x0001000000000000 ||| z) := by
    rw [← hvalue, BitVec.ofNat_toNat, BitVec.setWidth_eq]
  rw [seedtRunsTheNineLines t s r hr _ _ rfl rfl, ← hrr, ← hps]
  rfl

/-- Settles O32: the output words of the two states are equal, and the word SEEDT makes of `RR` with it reads lanes 0 and 2; its
lane 0 is that of the second MIX3. -/
theorem seedtReadsLanes0And2Only : Obligations.SeedtReadsLanes0And2Only := by
  intro t s u s' u' hplat hrows hs hu
  have hout := seedtOutput_congr t hplat hrows
  rw [exec_seedt_rr hs, exec_seedt_rr hu, ← hout]
  refine ⟨seedtWord_congr _, ?laneZero, lane_guard_seedtWord _ _, fun w hw => ?value⟩
  case laneZero =>
    apply BitVec.eq_of_toNat_eq
    rw [lane_zero_seedtWord, lane_zero_seedtWord]
  case value => rw [lane_zero_seedtWord, seedtOutput_toNat, hw]

/-! ### SEEDX -/

/-- SEEDX on every state, as one equation (R73). -/
theorem exec_seedx (x : U64) (s : State) :
    exec (.seedx x) s = .next
      { s with
        rr := setLane x 3 1
        rsp := s.rsp ++ statusOk :: beBytes 8 (setLane x 3 1).toNat } := rfl

/-- RDST on every state, as one equation (R84). -/
theorem exec_rdst (s : State) : exec .rdst s = .next { s with rsp := s.rsp ++ statusOk :: beBytes 8 s.rr.toNat } := rfl

theorem exec_seedx_rr {x : U64} {s s' : State} (h : exec (.seedx x) s = .next s') : s'.rr = setLane x 3 1 := by
  obtain ⟨hrr, -⟩ := execSeedx_next h
  exact hrr

/-- Settles O34: the value is the seed under the guard write, and RDST reads what SEEDX wrote. -/
theorem seedxSetsTheStateAndReturnsIt : Obligations.SeedxSetsTheStateAndReturnsIt := by
  intro x s v hv
  rw [← setLane_guard_eq] at hv
  refine ⟨?seedx, fun s' h => ?rdst⟩
  case seedx =>
    rw [exec_seedx, ← hv]
    rfl
  case rdst =>
    rw [exec_rdst, exec_seedx_rr h, ← hv]
    rfl

/-- Settles O35: what SEEDX leaves is the guard write on the seed, which forgets lane 3 of the seed only and keeps a word whose lane 3
is 1 already. -/
theorem seedxConsequences : Obligations.SeedxConsequences := by
  refine ⟨fun x s t u ht hu => ?idempotent, fun x y s t s' t' hs ht => ?agree, fun v s => ⟨fun hv => ?reach, ?reached⟩⟩
  case idempotent => rw [exec_seedx_rr hu, exec_seedx_rr ht]
  case agree => rw [exec_seedx_rr hs, exec_seedx_rr ht, setLane_guard_eq_iff]
  case reach =>
    have hself : setLane v 3 1 = v := by
      rw [← hv, setLane_lane_self]
    exact ⟨v, _, exec_seedx v s, hself⟩
  case reached =>
    rintro ⟨x, t, hx, rfl⟩
    rw [exec_seedx_rr hx, lane_setLane_same]

/-! ### Who uses the platform source -/

/-- A command other than SEEDT is a function of `RR`: it writes `RR` and answers a payload by what `RR` was, and does nothing else
(R73, R80, R84). -/
theorem exec_of_ne_seedt {i : Instr} (hi : ∀ t, i ≠ .seedt t) :
    ∃ (newRR : U64 → U64) (payload : U64 → List Byte), ∀ s : State,
      exec i s = .next { s with rr := newRR s.rr, rsp := s.rsp ++ statusOk :: payload s.rr } := by
  cases i with
  | seedt t => exact absurd rfl (hi t)
  | seedx x => exact ⟨fun _ => setLane x 3 1, fun _ => beBytes 8 (setLane x 3 1).toNat, exec_seedx x⟩
  | rdst => exact ⟨id, fun rr => beBytes 8 rr.toNat, exec_rdst⟩
  | draw f => exact ⟨fun rr => (drawValue (beNat f) rr).2, fun rr => beBytes f.length (drawValue (beNat f) rr).1, exec_draw f⟩

/-- Settles O49: what such a command does is a function of `RR` that leaves the three fields alone, whatever they hold. -/
theorem onlySeedtUsesThePlatformSource : Obligations.OnlySeedtUsesThePlatformSource := by
  intro i s s' plat ps rows hi h
  obtain ⟨newRR, payload, hexec⟩ := exec_of_ne_seedt hi
  rw [hexec] at h ⊢
  cases h
  exact ⟨rfl, rfl, rfl, rfl⟩

/-! ### `PS` between commands -/

/-- `s` with another value of `PS`. -/
def withPs (p : U32) (s : State) : State :=
  { s with ps := p }

/-- SEEDT seeds `PS` before it reads it, and no other command reads it (R15). -/
theorem exec_withPs {i : Instr} {s s' : State} (p : U32) (h : exec i s = .next s') :
    ∃ p', exec i (withPs p s) = .next (withPs p' s') := by
  by_cases hi : ∃ t, i = .seedt t
  · obtain ⟨t, rfl⟩ := hi
    rw [exec_seedt] at h
    cases h
    exact ⟨_, exec_seedt t (withPs p s)⟩
  · obtain ⟨newRR, payload, hexec⟩ := exec_of_ne_seedt (not_exists.mp hi)
    rw [hexec] at h
    cases h
    exact ⟨p, hexec (withPs p s)⟩

/-- A step consumes a reserved byte with the response `FF` (R40, R100). -/
theorem step_of_illegal {s : State} {op : Byte} {rest : List Byte} (hd : decode s.cmd = .illegal op rest) :
    step s = .next (raiseIllegal (consumeTo rest s)) := by
  rw [step, fetchCommand, hd]

/-- The decoder does not look at `PS`, so a step takes the same arm whatever it holds, and answers a state that differs in it only. -/
theorem step_withPs (s : State) (p : U32) :
    ∃ (s' : State) (p' : U32), step s = .next s' ∧ step (withPs p s) = .next (withPs p' s') := by
  cases hd : decode s.cmd with
  | command i rest =>
    obtain ⟨s', hexec⟩ := exec_total i (consumeTo rest s)
    obtain ⟨p', hexec'⟩ := exec_withPs p hexec
    exact ⟨s', p', (stepRunsTheDecodedCommand s i rest hd).trans hexec,
      (stepRunsTheDecodedCommand (withPs p s) i rest hd).trans hexec'⟩
  | illegal op rest => exact ⟨_, p, step_of_illegal hd, step_of_illegal (s := withPs p s) hd⟩
  | incomplete => exact ⟨s, p, step_of_incomplete hd, step_of_incomplete (s := withPs p s) hd⟩

/-- Settles O48: by induction on the number of steps, with `PS` general, since each step keeps the two runs equal but for it. -/
theorem psIsUnobservable : Obligations.PsIsUnobservable := by
  intro k
  induction k with
  | zero => exact fun s p => ⟨s, p, rfl, rfl⟩
  | succ k ih =>
    intro s p
    obtain ⟨u, q, hstep, hstep'⟩ := step_withPs s p
    obtain ⟨s', p', hrun, hrun'⟩ := ih u q
    exact ⟨s', p', (runSteps_succ hstep).trans hrun, (runSteps_succ hstep').trans hrun'⟩

end Sys2Proof.Proofs

/-! PROOFS. The draw and the read-out (43_draw_and_read.md): the closed forms of the two arms (R81, R82), what the width correction does
(R83), the range of the result and what a draw depends on (R85), and RDST (R84). -/

namespace Sys2Proof.Proofs

open Sys2Proof.Machine Sys2Proof.Laws

/-! ### The read-out -/

/-- Settles O36: a word of 64 bits fits its eight bytes. -/
theorem rdstReturnsTheRawState : Obligations.RdstReturnsTheRawState := by
  intro s
  have hvalue : beNat (beBytes 8 s.rr.toNat) = s.rr.toNat := by
    rw [beNat_beBytes, ← pow_two_eight, Nat.mod_eq_of_lt s.rr.isLt]
  exact ⟨beBytes 8 s.rr.toNat, exec_rdst s, beBytes_length 8 _, hvalue⟩

/-! ### The small draw -/

/-- The small draw with lane 1 as arithmetic (R81). -/
theorem drawSmall_eq (m : Nat) (rr : U64) :
    drawSmall m rr = (if m = 0 then 0 else (mix2 rr).toNat / 2 ^ 16 % 2 ^ 16 % m, mix2 rr) := by
  have hlane : (lane (mix2 rr) 1).toNat = (mix2 rr).toNat / 2 ^ 16 % 2 ^ 16 := lane_toNat _ 1
  rw [← hlane]
  rfl

/-- Settles O37: a modulus of at most 65535 takes the small arm. -/
theorem smallDrawIsOneMix2AndLane1 : Obligations.SmallDrawIsOneMix2AndLane1 := by
  intro f s hm
  rw [exec_draw, drawValue_small s.rr ((byteLen_le_two _).mpr hm), drawSmall_eq]
  rfl

/-! ### The wide draw -/

/-- What `n` passes of the wide arm accumulate from `rr`: their words, the first least significant (R82). -/
def wideWords (n : Nat) (rr : U64) : Nat :=
  ∑ j ∈ Finset.range n, drawWord (mix3^[j + 1] rr) * 2 ^ (32 * j)

/-- The loop of the wide arm runs `ceil(len / 4)` passes from an empty accumulator (R82). -/
theorem drawWideLoop_from_zero (len : Nat) (rr : U64) :
    drawWideLoop ((len + 1) / 2) ((len + 1) / 2) 0 0 rr = (wideWords ((len + 3) / 4) rr, mix3^[(len + 3) / 4] rr) := by
  have hloop := drawWideLoop_eq ((len + 1) / 2) ((len + 3) / 4) ((len + 1) / 2) 0 0 rr (by omega) (by omega) (by norm_num)
  simpa only [wideWords, Nat.zero_add, Nat.mul_zero] using hloop

theorem drawWide_eq (m len : Nat) (rr : U64) :
    drawWide m len rr = (clear16 (wideWords ((len + 3) / 4) rr) (8 * len) % m, mix3^[(len + 3) / 4] rr) := by
  rw [drawWide, drawWideLoop_from_zero]

/-- The 16-bit clear takes a field of 16 bits out by subtraction (R82). -/
theorem clear16_eq_sub (acc pos : Nat) : clear16 acc pos = acc - acc / 2 ^ pos % 2 ^ 16 * 2 ^ pos := by
  have hacc : acc = acc / 2 ^ (pos + 16) * 2 ^ (pos + 16) + acc / 2 ^ pos % 2 ^ 16 * 2 ^ pos + acc % 2 ^ pos :=
    calc acc = (acc / 2 ^ pos / 2 ^ 16 * 2 ^ 16 + acc / 2 ^ pos % 2 ^ 16) * 2 ^ pos + acc % 2 ^ pos := by
          rw [Nat.div_add_mod', Nat.div_add_mod']
      _ = acc / 2 ^ (pos + 16) * 2 ^ (pos + 16) + acc / 2 ^ pos % 2 ^ 16 * 2 ^ pos + acc % 2 ^ pos := by
          rw [Nat.div_div_eq_div_mul, ← pow_add, pow_add 2 pos 16]
          ring
  rw [clear16_eq]
  omega

/-- Settles O38: a modulus from 65536 up takes the wide arm, whose accumulator is the sum of its words and whose correction is a
subtraction. -/
theorem wideDrawConcatenatesMix3Words : Obligations.WideDrawConcatenatesMix3Words := by
  rintro f s m len n acc rfl hm rfl rfl hacc
  have hwide : ¬ byteLen (beNat f) ≤ 2 := by
    rw [byteLen_le_two]
    omega
  have hwords : wideWords ((byteLen (beNat f) + 3) / 4) s.rr = acc := by
    simp only [wideWords, drawWord_eq, hacc]
  rw [exec_draw, drawValue_wide s.rr hwide, drawWide_eq, hwords, clear16_eq_sub]
  rfl

/-! ### The width correction -/

/-- The clear cuts an accumulator that ends within the cleared bits down to its low part (R83). -/
theorem clear16_eq_mod {acc pos : Nat} (h : acc < 2 ^ (pos + 16)) : clear16 acc pos = acc % 2 ^ pos := by
  rw [clear16_eq, Nat.div_eq_of_lt h, Nat.zero_mul, Nat.zero_add]

/-- The clear leaves an accumulator that ends below the cleared bits (R83). -/
theorem clear16_eq_self {acc pos : Nat} (h : acc < 2 ^ pos) : clear16 acc pos = acc := by
  rw [clear16_eq_mod (h.trans (Nat.pow_lt_pow_right one_lt_two (by omega))), Nat.mod_eq_of_lt h]

/-- Settles O39: the bits one by one; then the rows of R83's table, by how far the accumulator's bits reach past `8 * len`: 0, 8, 16
or 24 bits, of which the clear takes 16. -/
theorem widthCorrectionClearsSixteenBits : Obligations.WidthCorrectionClearsSixteenBits := by
  refine ⟨fun acc len k => ?bits, fun acc len hacc => ⟨fun h => ?zero, fun h => ?three, fun h => ?two, fun h => ⟨?one, ?stray⟩⟩⟩
  case bits =>
    have hlast : k < 8 * len + 16 ↔ k ≤ 8 * len + 15 := Nat.lt_succ_iff
    simp only [clear16_testBit, hlast]
  case zero =>
    rw [show 32 * ((len + 3) / 4) = 8 * len by omega] at hacc
    exact clear16_eq_self hacc
  case three =>
    rw [show 32 * ((len + 3) / 4) = 8 * len + 8 by omega] at hacc
    exact clear16_eq_mod (hacc.trans (Nat.pow_lt_pow_right one_lt_two (by omega)))
  case two =>
    rw [show 32 * ((len + 3) / 4) = 8 * len + 16 by omega] at hacc
    exact clear16_eq_mod hacc
  case one => rw [clear16_eq, Nat.add_comm]
  case stray =>
    rw [show 32 * ((len + 3) / 4) = 8 * len + 16 + 8 by omega, pow_add] at hacc
    exact Nat.div_lt_of_lt_mul hacc

/-! ### The range of the result -/

/-- A draw with a modulus other than 0 answers a remainder by it, in both of its arms (R85 (a)). -/
theorem drawValue_lt {m : Nat} (rr : U64) (hm : 0 < m) : (drawValue m rr).1 < m := by
  by_cases hlen : byteLen m ≤ 2
  · rw [drawValue_small rr hlen, drawSmall_eq, if_neg hm.ne']
    exact Nat.mod_lt _ hm
  · rw [drawValue_wide rr hlen, drawWide_eq]
    exact Nat.mod_lt _ hm

/-- The result is at most the modulus, so the field that holds the modulus holds the result (R39). -/
theorem beNat_draw_payload (f : List Byte) (rr : U64) :
    beNat (beBytes f.length (drawValue (beNat f) rr).1) = (drawValue (beNat f) rr).1 := by
  rw [beNat_beBytes, Nat.mod_eq_of_lt ((drawValue_le _ _).trans_lt (beNat_lt f))]

/-- Settles O40: the response's bytes are read back as the draw's value, and that is a remainder, or at most 0. -/
theorem drawResultIsInRange : Obligations.DrawResultIsInRange := by
  intro f s
  refine ⟨_, _, exec_draw f s, rfl, beBytes_length _ _, ?below, ?zero, beNat_draw_payload f s.rr⟩ <;> rw [beNat_draw_payload]
  case below => exact drawValue_lt s.rr
  case zero => exact fun hm => Nat.le_zero.mp (hm ▸ drawValue_le (beNat f) s.rr)

/-! ### What a draw depends on -/

/-- Once MIX3 has run, only the low 48 bits of the word it ran on are left to tell (R66). -/
theorem mix3_iterate_succ_congr {rr v : U64} (h : rr.toNat % 2 ^ 48 = v.toNat % 2 ^ 48) (j : Nat) :
    mix3^[j + 1] rr = mix3^[j + 1] v := by
  rw [Function.iterate_succ_apply, Function.iterate_succ_apply, (mix3_eq_iff rr v).mpr h]

theorem wideWords_congr {rr v : U64} (h : rr.toNat % 2 ^ 48 = v.toNat % 2 ^ 48) (n : Nat) : wideWords n rr = wideWords n v := by
  simp only [wideWords, mix3_iterate_succ_congr h]

/-- Either arm begins with a mixing step, so the low 48 bits of `RR` are all that a draw reads (R85 (d)). -/
theorem drawValue_congr {rr v : U64} (h : rr.toNat % 2 ^ 48 = v.toNat % 2 ^ 48) (m : Nat) : drawValue m rr = drawValue m v := by
  by_cases hlen : byteLen m ≤ 2
  · rw [drawValue_small rr hlen, drawValue_small v hlen, drawSmall_eq, drawSmall_eq, mix2_congr h]
  · obtain ⟨j, hj⟩ : ∃ j, (byteLen m + 3) / 4 = j + 1 := Nat.exists_eq_add_one.mpr (by omega)
    rw [drawValue_wide rr hlen, drawValue_wide v hlen, drawWide_eq, drawWide_eq, wideWords_congr h, hj, mix3_iterate_succ_congr h]

/-- Of the modulus, its byte length decides which steps run (R85 (b), (d)). -/
theorem drawValue_rr (m : Nat) (rr : U64) :
    (drawValue m rr).2 = if byteLen m ≤ 2 then mix2 rr else mix3^[(byteLen m + 3) / 4] rr := by
  split
  case isTrue hlen => rw [drawValue_small rr hlen, drawSmall_eq]
  case isFalse hlen => rw [drawValue_wide rr hlen, drawWide_eq]

theorem exec_draw_rr {f : List Byte} {s s' : State} (h : exec (.draw f) s = .next s') : s'.rr = (drawValue (beNat f) s.rr).2 := by
  obtain ⟨hrr, -⟩ := execDraw_next h
  exact hrr

/-- Settles O41: the two draws do the same on the two words, and the byte length of the modulus decides the new `RR`. -/
theorem drawDependsOnLow48AndLengthClass : Obligations.DrawDependsOnLow48AndLengthClass := by
  intro f g s t s' t' hlow hs ht
  rw [exec_draw_rr hs, exec_draw_rr ht, drawValue_congr hlow]
  refine ⟨fun hlen => ?rr, drawValue_guard _ _, fun hm => by rw [hm]⟩
  case rr => rw [drawValue_rr, drawValue_rr, hlen]

end Sys2Proof.Proofs

/-! PROOFS. Exceptions (60_exceptions.md): which bytes raise IllegalCommand and what it does (R100), and that nothing else can fail
(R101). -/

namespace Sys2Proof.Proofs

open Sys2Proof.Machine Sys2Proof.Safety Sys2Proof.Laws

/-! ### IllegalCommand -/

/-- A step on a reserved byte, as one equation on the state (R100). -/
theorem step_of_reserved {s : State} {op : Byte} {rest : List Byte} (hcmd : s.cmd = op :: rest) (hop : Reserved op) :
    step s = .next { s with cmd := rest, rsp := s.rsp ++ [0xFF] } := by
  have hd : decode s.cmd = .illegal op rest := by
    rw [hcmd, decode_reserved rest hop]
  exact step_of_illegal hd

/-- Settles O10: the illegal clause of the decoder's characterisation, and the illegal arm of a step. -/
theorem reservedByteRaisesIllegalCommand : Obligations.ReservedByteRaisesIllegalCommand := by
  refine ⟨fun op rest => ?exactly, fun op op' bs rest hop hd => ?noOther, fun s op rest => step_of_reserved⟩
  case exactly => exact (decode_eq_iff (op :: rest) (.illegal op rest)).trans (and_iff_left rfl)
  case noOther =>
    obtain ⟨hreserved, hcons⟩ := (decode_eq_iff (op :: bs) (.illegal op' rest)).mp hd
    cases hcons
    exact hop hreserved

/-! ### Nothing else can fail -/

/-- A step answers a next state on whatever stands in front of the stream: a command by its own meaning, a reserved byte by the
defined transition (R100), an incomplete command by waiting (R45, R117). -/
theorem step_total (s : State) : ∃ s', step s = .next s' := by
  obtain ⟨i, rest, -, hs⟩ | ⟨op, rest, -, hs⟩ | ⟨-, hs⟩ := step_cases s <;> rw [hs]
  case inl => exact exec_total i (consumeTo rest s)
  case inr.inl => exact ⟨_, rfl⟩
  case inr.inr => exact ⟨s, rfl⟩

/-- Settles O12: totality of the four meanings, and through it of a step. -/
theorem nothingCanFail : Obligations.NothingCanFail :=
  ⟨exec_total, step_total⟩

end Sys2Proof.Proofs

/-! PROOFS. Reset and hazards (70_reset_and_hazards.md): what the host does between steps shows only where it should (R113), a finite
stream is worked off (R115 to R117), and reset forgets the past (R111). -/

namespace Sys2Proof.Proofs

open Sys2Proof.Machine Sys2Proof.Safety Sys2Proof.Laws

/-! ### Bytes sent before a step (R113) -/

/-- A command in front of the stream stays in front of it when bytes arrive behind (R42). -/
theorem decode_append_of_command {bs rest : List Byte} {i : Instr} (more : List Byte) (hd : decode bs = .command i rest) :
    decode (bs ++ more) = .command i (rest ++ more) := by
  obtain ⟨hi, rfl⟩ := (decode_eq_iff bs (.command i rest)).mp hd
  rw [List.append_assoc, decode_encode_append _ hi]

/-- So does a reserved byte (R40). -/
theorem decode_append_of_illegal {bs rest : List Byte} {op : Byte} (more : List Byte) (hd : decode bs = .illegal op rest) :
    decode (bs ++ more) = .illegal op (rest ++ more) := by
  obtain ⟨hop, rfl⟩ := (decode_eq_iff bs (.illegal op rest)).mp hd
  rw [List.cons_append, decode_reserved _ hop]

/-- A command leaves the bytes behind it where they are (R24). -/
theorem exec_cmd {i : Instr} {s s' : State} (h : exec i s = .next s') : s'.cmd = s.cmd :=
  (responseLengthIsFixedByTheCommand i s s' h).1

/-- Sending commutes with a command. -/
theorem exec_hostSend {i : Instr} {s s' : State} (bs : List Byte) (h : exec i s = .next s') :
    exec i (hostSend bs s) = .next (hostSend bs s') := by
  have hsent := exec_consumeTo h (s.cmd ++ bs)
  rw [← exec_cmd h] at hsent
  rwa [hostSend, ← exec_cmd h]

/-- Settles O15: the decoder answers the same command or reserved byte with the new bytes behind it, and neither arm of the step looks
at what is behind. -/
theorem sendingEarlyChangesNothing : Obligations.SendingEarlyChangesNothing := by
  intro s s' bs hwait hstep
  obtain ⟨i, rest, hd, hs⟩ | ⟨op, rest, hd, hs⟩ | ⟨hd, -⟩ := step_cases s
  case inl =>
    have hexec : exec i (consumeTo rest s) = .next s' := hs.symm.trans hstep
    calc step (hostSend bs s)
        = exec i (hostSend bs (consumeTo rest s)) :=
          stepRunsTheDecodedCommand (hostSend bs s) i (rest ++ bs) (decode_append_of_command bs hd)
      _ = .next (hostSend bs s') := exec_hostSend bs hexec
  case inr.inl =>
    rw [hs] at hstep
    cases hstep
    exact step_of_illegal (s := hostSend bs s) (decode_append_of_illegal bs hd)
  case inr.inr => exact absurd hd hwait

/-! ### Responses read before or after a step (R113, R21) -/

/-- `s` with other bytes in the response stream. -/
def withRsp (old : List Byte) (s : State) : State :=
  { s with rsp := old }

/-- A command appends a response to whatever the response stream holds, and does not look at it (R21, R38). -/
theorem exec_withRsp {i : Instr} {s s' : State} (h : exec i s = .next s') :
    ∃ response, s'.rsp = s.rsp ++ response ∧ ∀ old, exec i (withRsp old s) = .next (withRsp (old ++ response) s') := by
  by_cases hi : ∃ t, i = .seedt t
  · obtain ⟨t, rfl⟩ := hi
    rw [exec_seedt] at h
    cases h
    exact ⟨[statusOk], rfl, fun old => exec_seedt t (withRsp old s)⟩
  · obtain ⟨newRR, payload, hexec⟩ := exec_of_ne_seedt (not_exists.mp hi)
    rw [hexec] at h
    cases h
    exact ⟨statusOk :: payload s.rr, rfl, fun old => hexec (withRsp old s)⟩

/-- A step appends a response to whatever the response stream holds (none where it waits), and does not look at it. -/
theorem step_withRsp {s s' : State} (h : step s = .next s') :
    ∃ response, s'.rsp = s.rsp ++ response ∧ ∀ old, step (withRsp old s) = .next (withRsp (old ++ response) s') := by
  obtain ⟨i, rest, hd, hs⟩ | ⟨op, rest, hd, hs⟩ | ⟨hd, hs⟩ := step_cases s <;> rw [hs] at h
  case inl =>
    obtain ⟨response, hrsp, hexec⟩ := exec_withRsp h
    exact ⟨response, hrsp, fun old => (stepRunsTheDecodedCommand (withRsp old s) i rest hd).trans (hexec old)⟩
  case inr.inl =>
    cases h
    exact ⟨[statusIllegal], rfl, fun old => step_of_illegal (s := withRsp old s) hd⟩
  case inr.inr =>
    cases h
    refine ⟨[], (List.append_nil _).symm, fun old => ?_⟩
    rw [List.append_nil]
    exact step_of_incomplete (s := withRsp old s) hd

/-- Settles O16: the response is appended behind the bytes that are taken. -/
theorem readingResponsesCommutesWithAStep : Obligations.ReadingResponsesCommutesWithAStep := by
  intro s s' n hn hstep
  obtain ⟨response, hrsp, hold⟩ := step_withRsp hstep
  refine ⟨?block, ?bytes⟩
  case block =>
    have hdrop : s'.rsp.drop n = s.rsp.drop n ++ response := by
      rw [hrsp, List.drop_append_of_le_length hn]
    have hafter : (hostTake n s').2 = withRsp (s.rsp.drop n ++ response) s' := by
      rw [← hdrop]
      rfl
    rw [hafter]
    exact hold (s.rsp.drop n)
  case bytes => rw [hostTake_bytes, hostTake_bytes, hrsp, List.take_append_of_le_length hn]

/-! ### The end of a finite stream (R115 to R117) -/

/-- A block that waits keeps waiting, until the host sends (R117). -/
theorem runSteps_of_waiting {s : State} (hs : Waiting s) (k : Nat) : runSteps k s = .next s := by
  induction k with
  | zero => rfl
  | succ k ih => rw [runSteps_succ (step_of_incomplete hs), ih]

/-- A step of a block that does not wait consumes at least one byte: a command has its opcode byte, and a reserved byte is one. -/
theorem step_waiting_or_consumes {s s' : State} (h : step s = .next s') : Waiting s ∨ s'.cmd.length < s.cmd.length := by
  obtain ⟨i, rest, hd, hs⟩ | ⟨op, rest, hd, hs⟩ | ⟨hd, -⟩ := step_cases s
  case inl =>
    obtain ⟨-, hcmd⟩ := (decode_eq_iff _ (.command i rest)).mp hd
    have hrest : s'.cmd = rest := exec_cmd (hs.symm.trans h)
    have hpos := encode_length_pos i
    rw [hrest, hcmd, List.length_append]
    exact .inr (by omega)
  case inr.inl =>
    obtain ⟨-, hcmd⟩ := (decode_eq_iff _ (.illegal op rest)).mp hd
    rw [hs] at h
    cases h
    rw [raiseIllegal_cmd, consumeTo_cmd, hcmd, List.length_cons]
    exact .inr (Nat.lt_succ_self _)
  case inr.inr => exact .inl hd

/-- With at least as many steps as the stream has bytes a run ends in a block that waits: each step uses up a byte, or the block waits
already. -/
theorem runSteps_reaches_waiting {k : Nat} {s : State} (hk : s.cmd.length ≤ k) : ∃ s', runSteps k s = .next s' ∧ Waiting s' := by
  induction k generalizing s with
  | zero =>
    have hempty : s.cmd = [] := List.length_eq_zero_iff.mp (Nat.le_zero.mp hk)
    refine ⟨s, rfl, ?_⟩
    rw [Waiting, hempty]
    rfl
  | succ k ih =>
    obtain ⟨u, hstep⟩ := step_total s
    obtain hwait | hless := step_waiting_or_consumes hstep
    · exact ⟨s, runSteps_of_waiting hwait (k + 1), hwait⟩
    · obtain ⟨s', hrun, hwait⟩ := ih (s := u) (by omega)
      exact ⟨s', (runSteps_succ hstep).trans hrun, hwait⟩

/-- Settles O17: the run ends in a block that waits, and such a block stays as it is. -/
theorem finiteStreamIsWorkedOff : Obligations.FiniteStreamIsWorkedOff := by
  intro s
  obtain ⟨s', hrun, hwait⟩ := runSteps_reaches_waiting (le_refl s.cmd.length)
  exact ⟨s', hrun, hwait, runSteps_of_waiting hwait⟩

/-! ### Reset (R111) -/

/-- Reset reads nothing of the state before it but the rows, so two resets with one strap differ in `PS` only. -/
theorem hostReset_eq_withPs {s t : State} (strap : Bool) (p q : U32) (hrows : s.rows = t.rows) :
    hostReset strap q t = withPs q (hostReset strap p s) := by
  rw [hostReset, ← hrows]
  rfl

/-- Settles O20: the two runs start on states that differ in `PS` only, and nothing reads the value it starts with. -/
theorem nothingSurvivesReset : Obligations.NothingSurvivesReset := by
  intro s t strap p q bs k hrows
  obtain ⟨u, p', hrun, hrun'⟩ := psIsUnobservable k (hostSend bs (hostReset strap p s)) q
  refine ⟨u, withPs p' u, hrun, ?other, rfl⟩
  case other =>
    rw [hostReset_eq_withPs strap p q hrows]
    exact hrun'

end Sys2Proof.Proofs
